-- ==== Sys2Proof/Word.lean ====
section
/-! DEFINITION. The words the Chip64 CORE computes with, and the console's vocabulary (spec/00_scope.md R7, R8). -/

namespace Sys2Proof

/-- A register value: a natural number in `[0, 2^64)`; every operator on it is the unsigned one (R8). -/
abbrev Word := BitVec 64

/-- One memory cell (R50), also the draw of the random source (R216). -/
abbrev Byte := BitVec 8

/-- A 16-bit instruction word, bit 0 least significant (R7, R70). -/
abbrev Code := BitVec 16

/-- A register index 0x0 to 0xF, or any other 4-bit field of an instruction word (R20, R71). -/
abbrev Reg := BitVec 4

/-- The flag register `VF`, index 0xF (R22). -/
def Reg.vf : Reg := 0xF#4

/-- Register index 0x0, the base of JPV0 (R24). -/
def Reg.v0 : Reg := 0x0#4

/-- A string handed to or taken from a console collaborator (R13), as the list of its characters. -/
abbrev Line := List Char

/-- The four numeral bases of the console instructions (R185 to R192). -/
inductive Base where
  /-- Base 16: OUTX, INX. -/
  | hex
  /-- Base 10: OUTD, IND. -/
  | dec
  /-- Base 2: OUTB, INB. -/
  | bin
  /-- Base 8: OUTO, INO. -/
  | oct
  deriving DecidableEq, Repr

/-- The base as a number: 16, 10, 2 or 8. -/
def Base.radix : Base → Nat
  | .hex => 16
  | .dec => 10
  | .bin => 2
  | .oct => 8

/-- The truth value of a flag computation as the 0 or 1 the flag register gets (R22). -/
def flagWord (b : Bool) : Word :=
  if b then 1#64 else 0#64

end Sys2Proof
end

