-- ==== Sys2Proof/Syntax.lean ====
section
/-! DEFINITION. The 33 instructions of spec/opcode_table.json, one constructor per row (spec/30_encoding.md R75). -/

namespace Sys2Proof

/-- An instruction. `x` and `y` are register indices, `nn` the 8-bit immediate, `nnn` the 12-bit one,
`a` a shift amount (R71, R73). The unrecognised words of R78 are no instruction and have no constructor (log 15). -/
inductive Instr where
  /-- `0000`: stop execution (R103). -/
  | halt
  /-- `01EE`: return from a call (R120). -/
  | ret
  /-- `1NNN`: jump (R121). -/
  | jp (nnn : BitVec 12)
  /-- `2NNN`: call a subroutine (R122). -/
  | call (nnn : BitVec 12)
  /-- `3XNN`: skip if register equals constant (R123). -/
  | seqk (x : Reg) (nn : BitVec 8)
  /-- `4XNN`: skip if register differs from constant (R124). -/
  | snek (x : Reg) (nn : BitVec 8)
  /-- `5XYn`: skip if registers are equal; `n` is the nibble the decoder does not examine (R76, R125; log 14). -/
  | seq (x y : Reg) (n : BitVec 4)
  /-- `6XNN`: load constant (R140). -/
  | ldk (x : Reg) (nn : BitVec 8)
  /-- `7XNN`: add constant, no flag (R141). -/
  | addk (x : Reg) (nn : BitVec 8)
  /-- `8XY0`: copy register (R142). -/
  | mov (x y : Reg)
  /-- `8XY1`: bitwise OR (R143). -/
  | or (x y : Reg)
  /-- `8XY2`: bitwise AND (R144). -/
  | and (x y : Reg)
  /-- `8XY3`: bitwise exclusive OR (R145). -/
  | xor (x y : Reg)
  /-- `8XY4`: add with carry out (R146). -/
  | add (x y : Reg)
  /-- `8XY5`: subtract, flag = no borrow (R147). -/
  | sub (x y : Reg)
  /-- `8XA6`: logical shift right by a constant (R148). -/
  | shr (x : Reg) (a : BitVec 4)
  /-- `8XY7`: reverse subtract into `y` (R149). -/
  | rsub (x y : Reg)
  /-- `8XAE`: shift left by a constant (R150). -/
  | shl (x : Reg) (a : BitVec 4)
  /-- `9XYn`: skip if registers differ; `n` as in `seq` (R76, R126; log 14). -/
  | sne (x y : Reg) (n : BitVec 4)
  /-- `ANNN`: set index pointer (R170). -/
  | seti (nnn : BitVec 12)
  /-- `BNNN`: jump to `x[0]` plus offset (R127). -/
  | jpv0 (nnn : BitVec 12)
  /-- `CXNN`: random byte masked by a constant (R151). -/
  | rand (x : Reg) (nn : BitVec 8)
  /-- `DX00`: display register in hexadecimal (R185). -/
  | outx (x : Reg)
  /-- `DX01`: display register in decimal (R186). -/
  | outd (x : Reg)
  /-- `DX02`: display register in binary (R187). -/
  | outb (x : Reg)
  /-- `DX03`: display register in octal (R188). -/
  | outo (x : Reg)
  /-- `EX1E`: add register to index pointer (R171). -/
  | addi (x : Reg)
  /-- `EX55`: store registers 0 to `x` (R172). -/
  | spill (x : Reg)
  /-- `EX65`: load registers 0 to `x` (R173). -/
  | loadb (x : Reg)
  /-- `FX00`: read register in hexadecimal (R189). -/
  | inx (x : Reg)
  /-- `FX01`: read register in decimal (R190). -/
  | ind (x : Reg)
  /-- `FX02`: read register in binary (R191). -/
  | inb (x : Reg)
  /-- `FX03`: read register in octal (R192). -/
  | ino (x : Reg)
  deriving DecidableEq, Repr

end Sys2Proof
end

