-- ==== Sys2Proof/WellFormed.lean ====
section
/-! DEFINITION. Which terms of Instr are instructions. Every operand has the width of its field, so the type itself refuses an
operand out of range (spec/30_encoding.md R73, R79); the one further check is the form the assembler emits (R76). -/

namespace Sys2Proof

/-- Every term of `Instr` is well formed: R73 bounds each operand by its field alone and R79 reserves no operand
value, so there is nothing left to refuse once the operands have their fields' types. -/
def Instr.wellFormed (_ : Instr) : Bool := true

/-- The form this spec's assembler emits: the nibble that SEQ and SNE ignore is 0 (R76, R82). A machine runs the
other forms as well, so no rule of execution asks for this. -/
def Instr.canonical : Instr → Bool
  | .halt => true
  | .ret => true
  | .jp _ => true
  | .call _ => true
  | .seqk _ _ => true
  | .snek _ _ => true
  | .seq _ _ n => n == 0#4
  | .ldk _ _ => true
  | .addk _ _ => true
  | .mov _ _ => true
  | .or _ _ => true
  | .and _ _ => true
  | .xor _ _ => true
  | .add _ _ => true
  | .sub _ _ => true
  | .shr _ _ => true
  | .rsub _ _ => true
  | .shl _ _ => true
  | .sne _ _ n => n == 0#4
  | .seti _ => true
  | .jpv0 _ => true
  | .rand _ _ => true
  | .outx _ => true
  | .outd _ => true
  | .outb _ => true
  | .outo _ => true
  | .addi _ => true
  | .spill _ => true
  | .loadb _ => true
  | .inx _ => true
  | .ind _ => true
  | .inb _ => true
  | .ino _ => true

end Sys2Proof
end

