-- ==== Sys2Proof/Decode.lean ====
section
/-! DEFINITION. The instruction word: its fields, the decoder, the encoder and the opcode table (spec/30_encoding.md). -/

namespace Sys2Proof

/-! ### Fields (R71) -/

/-- `T = w[15:12]`, the family. -/
def fieldT (w : Code) : BitVec 4 := w.extractLsb' 12 4

/-- `X = w[11:8]`. -/
def fieldX (w : Code) : Reg := w.extractLsb' 8 4

/-- `Y = w[7:4]`. -/
def fieldY (w : Code) : Reg := w.extractLsb' 4 4

/-- `N = w[3:0]`. -/
def fieldN (w : Code) : BitVec 4 := w.extractLsb' 0 4

/-- `NN = w[7:0]`. -/
def fieldNN (w : Code) : BitVec 8 := w.extractLsb' 0 8

/-- `NNN = w[11:0]`. -/
def fieldNNN (w : Code) : BitVec 12 := w.extractLsb' 0 12

/-! ### The decoder (R74) -/

/-- What the decoder answers: an instruction, or a rejection by name. -/
inductive Decoded where
  /-- The word is one of the 33 instructions. -/
  | instr (i : Instr)
  /-- The word is an unrecognised word (R78); the engine runs it as a no-op (R104). -/
  | unrecognised (w : Code)
  /-- Fewer than two bytes were there: no instruction word at all (R70; the fetch faults, R201). -/
  | truncated
  deriving DecidableEq, Repr

/-- Family 0x8 selects on the bottom nibble (R74). -/
def decodeAlu (w : Code) : Decoded :=
  match fieldN w with
  | 0x0#4 => .instr (.mov (fieldX w) (fieldY w))
  | 0x1#4 => .instr (.or (fieldX w) (fieldY w))
  | 0x2#4 => .instr (.and (fieldX w) (fieldY w))
  | 0x3#4 => .instr (.xor (fieldX w) (fieldY w))
  | 0x4#4 => .instr (.add (fieldX w) (fieldY w))
  | 0x5#4 => .instr (.sub (fieldX w) (fieldY w))
  | 0x6#4 => .instr (.shr (fieldX w) (fieldY w))
  | 0x7#4 => .instr (.rsub (fieldX w) (fieldY w))
  | 0xE#4 => .instr (.shl (fieldX w) (fieldY w))
  | _ => .unrecognised w

/-- Family 0xD selects on the whole low byte (R74, R77). -/
def decodeOutput (w : Code) : Decoded :=
  match fieldNN w with
  | 0x00#8 => .instr (.outx (fieldX w))
  | 0x01#8 => .instr (.outd (fieldX w))
  | 0x02#8 => .instr (.outb (fieldX w))
  | 0x03#8 => .instr (.outo (fieldX w))
  | _ => .unrecognised w

/-- Family 0xE selects on the whole low byte (R74, R77). -/
def decodeIndex (w : Code) : Decoded :=
  match fieldNN w with
  | 0x1E#8 => .instr (.addi (fieldX w))
  | 0x55#8 => .instr (.spill (fieldX w))
  | 0x65#8 => .instr (.loadb (fieldX w))
  | _ => .unrecognised w

/-- Family 0xF selects on the whole low byte (R74, R77). -/
def decodeInput (w : Code) : Decoded :=
  match fieldNN w with
  | 0x00#8 => .instr (.inx (fieldX w))
  | 0x01#8 => .instr (.ind (fieldX w))
  | 0x02#8 => .instr (.inb (fieldX w))
  | 0x03#8 => .instr (.ino (fieldX w))
  | _ => .unrecognised w

/-- The dispatch on the top nibble, once neither exact word matched (R74). The last arm is family 0xF. -/
def decodeFamily (w : Code) : Decoded :=
  match fieldT w with
  | 0x0#4 => .unrecognised w
  | 0x1#4 => .instr (.jp (fieldNNN w))
  | 0x2#4 => .instr (.call (fieldNNN w))
  | 0x3#4 => .instr (.seqk (fieldX w) (fieldNN w))
  | 0x4#4 => .instr (.snek (fieldX w) (fieldNN w))
  | 0x5#4 => .instr (.seq (fieldX w) (fieldY w) (fieldN w))
  | 0x6#4 => .instr (.ldk (fieldX w) (fieldNN w))
  | 0x7#4 => .instr (.addk (fieldX w) (fieldNN w))
  | 0x8#4 => decodeAlu w
  | 0x9#4 => .instr (.sne (fieldX w) (fieldY w) (fieldN w))
  | 0xA#4 => .instr (.seti (fieldNNN w))
  | 0xB#4 => .instr (.jpv0 (fieldNNN w))
  | 0xC#4 => .instr (.rand (fieldX w) (fieldNN w))
  | 0xD#4 => decodeOutput w
  | 0xE#4 => decodeIndex w
  | _ => decodeInput w

/-- The decoder: the two exact words first, and when one matches nothing else is dispatched; then the family (R74). -/
def decode (w : Code) : Decoded :=
  if w = 0x0000#16 then .instr .halt
  else if w = 0x01EE#16 then .instr .ret
  else decodeFamily w

/-- The decoder on bytes as memory holds them: the word is `concat(first, second)`, big-endian (R52, R70, R101). -/
def decodeBytes : List Byte → Decoded
  | hb :: lb :: _ => decode (hb ++ lb)
  | _ => .truncated

/-- An instruction word as memory holds it, its high byte first (R52). -/
def codeBytes (w : Code) : List Byte :=
  [w.extractLsb' 8 8, w.extractLsb' 0 8]

/-- The host's reading of an opcode-table word: its bits as the one 16-bit word, laid out in memory order and decoded. -/
def decodeTableWord (nbits w : Nat) : Option Instr :=
  match decodeBytes (codeBytes (BitVec.ofNat 16 (w % 2 ^ nbits))) with
  | .instr i => some i
  | .unrecognised _ => none
  | .truncated => none

/-! ### The encoder (R72, R82) -/

/-- Format `A`: `T NNN`. -/
def packA (t : BitVec 4) (nnn : BitVec 12) : Code := t ++ nnn

/-- Formats `K` and `B`: `T X NN`, the low byte an immediate or a selector. -/
def packK (t : BitVec 4) (x : Reg) (nn : BitVec 8) : Code := (t ++ x) ++ nn

/-- Formats `R` and `S`: `T X Y N`, with the shift amount in the Y position for `S`. -/
def packR (t : BitVec 4) (x y : Reg) (n : BitVec 4) : Code := (t ++ x) ++ (y ++ n)

/-- The word of an instruction, row for row the table of R75 and R82. -/
def encode : Instr → Code
  | .halt => 0x0000#16
  | .ret => 0x01EE#16
  | .jp nnn => packA 0x1#4 nnn
  | .call nnn => packA 0x2#4 nnn
  | .seqk x nn => packK 0x3#4 x nn
  | .snek x nn => packK 0x4#4 x nn
  | .seq x y n => packR 0x5#4 x y n
  | .ldk x nn => packK 0x6#4 x nn
  | .addk x nn => packK 0x7#4 x nn
  | .mov x y => packR 0x8#4 x y 0x0#4
  | .or x y => packR 0x8#4 x y 0x1#4
  | .and x y => packR 0x8#4 x y 0x2#4
  | .xor x y => packR 0x8#4 x y 0x3#4
  | .add x y => packR 0x8#4 x y 0x4#4
  | .sub x y => packR 0x8#4 x y 0x5#4
  | .shr x a => packR 0x8#4 x a 0x6#4
  | .rsub x y => packR 0x8#4 x y 0x7#4
  | .shl x a => packR 0x8#4 x a 0xE#4
  | .sne x y n => packR 0x9#4 x y n
  | .seti nnn => packA 0xA#4 nnn
  | .jpv0 nnn => packA 0xB#4 nnn
  | .rand x nn => packK 0xC#4 x nn
  | .outx x => packK 0xD#4 x 0x00#8
  | .outd x => packK 0xD#4 x 0x01#8
  | .outb x => packK 0xD#4 x 0x02#8
  | .outo x => packK 0xD#4 x 0x03#8
  | .addi x => packK 0xE#4 x 0x1E#8
  | .spill x => packK 0xE#4 x 0x55#8
  | .loadb x => packK 0xE#4 x 0x65#8
  | .inx x => packK 0xF#4 x 0x00#8
  | .ind x => packK 0xF#4 x 0x01#8
  | .inb x => packK 0xF#4 x 0x02#8
  | .ino x => packK 0xF#4 x 0x03#8

/-! ### The opcode table (R75, spec/opcode_table.json) -/

/-- One row: its mnemonic, and the words it takes, those that agree with `pattern` in every bit set in `mask`. -/
structure OpcodeRow where
  mnemonic : String
  pattern : Code
  mask : Code
  deriving DecidableEq, Repr

/-- The word falls in the row. -/
def OpcodeRow.matches (r : OpcodeRow) (w : Code) : Bool := w &&& r.mask == r.pattern

/-- The row of an instruction. -/
def Instr.row : Instr → OpcodeRow
  | .halt => ⟨"HALT", 0x0000#16, 0xFFFF#16⟩
  | .ret => ⟨"RET", 0x01EE#16, 0xFFFF#16⟩
  | .jp _ => ⟨"JP", 0x1000#16, 0xF000#16⟩
  | .call _ => ⟨"CALL", 0x2000#16, 0xF000#16⟩
  | .seqk _ _ => ⟨"SEQK", 0x3000#16, 0xF000#16⟩
  | .snek _ _ => ⟨"SNEK", 0x4000#16, 0xF000#16⟩
  | .seq _ _ _ => ⟨"SEQ", 0x5000#16, 0xF000#16⟩
  | .ldk _ _ => ⟨"LDK", 0x6000#16, 0xF000#16⟩
  | .addk _ _ => ⟨"ADDK", 0x7000#16, 0xF000#16⟩
  | .mov _ _ => ⟨"MOV", 0x8000#16, 0xF00F#16⟩
  | .or _ _ => ⟨"OR", 0x8001#16, 0xF00F#16⟩
  | .and _ _ => ⟨"AND", 0x8002#16, 0xF00F#16⟩
  | .xor _ _ => ⟨"XOR", 0x8003#16, 0xF00F#16⟩
  | .add _ _ => ⟨"ADD", 0x8004#16, 0xF00F#16⟩
  | .sub _ _ => ⟨"SUB", 0x8005#16, 0xF00F#16⟩
  | .shr _ _ => ⟨"SHR", 0x8006#16, 0xF00F#16⟩
  | .rsub _ _ => ⟨"RSUB", 0x8007#16, 0xF00F#16⟩
  | .shl _ _ => ⟨"SHL", 0x800E#16, 0xF00F#16⟩
  | .sne _ _ _ => ⟨"SNE", 0x9000#16, 0xF000#16⟩
  | .seti _ => ⟨"SETI", 0xA000#16, 0xF000#16⟩
  | .jpv0 _ => ⟨"JPV0", 0xB000#16, 0xF000#16⟩
  | .rand _ _ => ⟨"RAND", 0xC000#16, 0xF000#16⟩
  | .outx _ => ⟨"OUTX", 0xD000#16, 0xF0FF#16⟩
  | .outd _ => ⟨"OUTD", 0xD001#16, 0xF0FF#16⟩
  | .outb _ => ⟨"OUTB", 0xD002#16, 0xF0FF#16⟩
  | .outo _ => ⟨"OUTO", 0xD003#16, 0xF0FF#16⟩
  | .addi _ => ⟨"ADDI", 0xE01E#16, 0xF0FF#16⟩
  | .spill _ => ⟨"SPILL", 0xE055#16, 0xF0FF#16⟩
  | .loadb _ => ⟨"LOADB", 0xE065#16, 0xF0FF#16⟩
  | .inx _ => ⟨"INX", 0xF000#16, 0xF0FF#16⟩
  | .ind _ => ⟨"IND", 0xF001#16, 0xF0FF#16⟩
  | .inb _ => ⟨"INB", 0xF002#16, 0xF0FF#16⟩
  | .ino _ => ⟨"INO", 0xF003#16, 0xF0FF#16⟩

/-- The first instruction of every row, in the table's order: all its operands 0. -/
def tableInstrs : List Instr :=
  [.halt, .ret, .jp 0, .call 0, .seqk 0 0, .snek 0 0, .seq 0 0 0, .ldk 0 0, .addk 0 0, .mov 0 0, .or 0 0, .and 0 0] ++
  [.xor 0 0, .add 0 0, .sub 0 0, .shr 0 0, .rsub 0 0, .shl 0 0, .sne 0 0 0, .seti 0, .jpv0 0, .rand 0 0, .outx 0] ++
  [.outd 0, .outb 0, .outo 0, .addi 0, .spill 0, .loadb 0, .inx 0, .ind 0, .inb 0, .ino 0]

/-- The 33 rows of R75. -/
def opcodeTable : List OpcodeRow := tableInstrs.map Instr.row

/-! ### Assembler notation (R81, R82) -/

/-- The hexadecimal digit of a nibble, as in `V0` to `VF` (R81). -/
def nibbleChar (n : BitVec 4) : Char :=
  if n.toNat < 10 then Char.ofNat (48 + n.toNat) else Char.ofNat (55 + n.toNat)

/-- A register operand, `V` and its digit (R81). -/
def asmReg (r : Reg) : Line := ['V', nibbleChar r]

/-- An 8-bit immediate in hexadecimal with `0x` (R81). -/
def asmImm8 (nn : BitVec 8) : Line :=
  ['0', 'x', nibbleChar (nn.extractLsb' 4 4), nibbleChar (nn.extractLsb' 0 4)]

/-- A 12-bit address in hexadecimal with `0x` (R81). -/
def asmImm12 (nnn : BitVec 12) : Line :=
  ['0', 'x', nibbleChar (nnn.extractLsb' 8 4), nibbleChar (nnn.extractLsb' 4 4), nibbleChar (nnn.extractLsb' 0 4)]

/-- A shift amount, 0 to 15: written here as one hexadecimal digit with `0x` (R81, R82). -/
def asmAmount (a : BitVec 4) : Line := ['0', 'x', nibbleChar a]

/-- A 16-bit word as `.word` writes it (R81). -/
def asmWord (w : Code) : Line :=
  ['.', 'w', 'o', 'r', 'd', ' ', '0', 'x', nibbleChar (fieldT w), nibbleChar (fieldX w), nibbleChar (fieldY w), nibbleChar (fieldN w)]

/-- The operands of an instruction in the order of R82. -/
def Instr.asmOperands : Instr → List Line
  | .halt => []
  | .ret => []
  | .jp nnn => [asmImm12 nnn]
  | .call nnn => [asmImm12 nnn]
  | .seqk x nn => [asmReg x, asmImm8 nn]
  | .snek x nn => [asmReg x, asmImm8 nn]
  | .seq x y _ => [asmReg x, asmReg y]
  | .ldk x nn => [asmReg x, asmImm8 nn]
  | .addk x nn => [asmReg x, asmImm8 nn]
  | .mov x y => [asmReg x, asmReg y]
  | .or x y => [asmReg x, asmReg y]
  | .and x y => [asmReg x, asmReg y]
  | .xor x y => [asmReg x, asmReg y]
  | .add x y => [asmReg x, asmReg y]
  | .sub x y => [asmReg x, asmReg y]
  | .shr x a => [asmReg x, asmAmount a]
  | .rsub x y => [asmReg x, asmReg y]
  | .shl x a => [asmReg x, asmAmount a]
  | .sne x y _ => [asmReg x, asmReg y]
  | .seti nnn => [asmImm12 nnn]
  | .jpv0 nnn => [asmImm12 nnn]
  | .rand x nn => [asmReg x, asmImm8 nn]
  | .outx x => [asmReg x]
  | .outd x => [asmReg x]
  | .outb x => [asmReg x]
  | .outo x => [asmReg x]
  | .addi x => [asmReg x]
  | .spill x => [asmReg x]
  | .loadb x => [asmReg x]
  | .inx x => [asmReg x]
  | .ind x => [asmReg x]
  | .inb x => [asmReg x]
  | .ino x => [asmReg x]

/-- One line of assembly: the mnemonic, then the operands separated by a comma (R81). A form that the assembler does
not emit (`Instr.canonical` is false) is written as the raw word it is. -/
def Instr.asm (i : Instr) : Line :=
  if i.canonical then
    match i.asmOperands with
    | [] => i.row.mnemonic.toList
    | first :: rest => i.row.mnemonic.toList ++ [' '] ++ first ++ (rest.map fun o => [',', ' '] ++ o).flatten
  else asmWord (encode i)

end Sys2Proof
end

