-- ==== Sys2Proof/Config.lean ====
section
/-! DEFINITION. What one build of the Chip64 CORE fixes, and the values the spec leaves OPEN (spec/00_scope.md R6). -/

namespace Sys2Proof

/-- `MEM_SIZE`: 4096 bytes, addresses 0 to 4095 (R6, R50). -/
def Config.memSize : Nat := 4096

/-- The two shift-amount encodings the spec names (R6 `SHIFT_ENCODING`, 93 I8). -/
inductive ShiftEncoding where
  /-- The amount is the Y nibble, 0 to 15. -/
  | direct
  /-- The amount is the Y nibble plus 1, 1 to 16. -/
  | plusOne
  deriving DecidableEq, Repr

/-- `SHIFT_ENCODING`: the spec's value is `direct` (R6, D9; log 11). -/
def Config.shiftEncoding : ShiftEncoding := .direct

/-- `CALL_STACK_CAPACITY`: `none` is Unbounded, the spec's value for the reference (R6, R30, D8; log 10).
`some c` is a build with room for `c` return addresses. -/
def Config.callStackCapacity : Option Nat := none

/-- FREE VALUE. The byte the random source answers at draw number `n`: any value in `[0, 255]`, under no law
(R151, R216, D17; log 6). -/
opaque Config.randomByte : Nat → Byte

/-- How a numeral is spelled beside its digits: what R193 leaves OPEN in bases 16, 2 and 8, and no more (D13; log 7). -/
structure Spelling where
  /-- Blanks before the numeral (padding). -/
  before : Nat
  /-- A base marker stands before the digits: `0x`, `0b` or `0o`. -/
  marked : Bool
  /-- The letter of the marker is a capital. -/
  markerUpper : Bool
  /-- Zeros before the first digit (padding). -/
  zeros : Nat
  /-- The digits 10 to 15 are capitals. -/
  upper : Bool
  /-- Blanks after the numeral (padding). -/
  after : Nat
  deriving DecidableEq, Repr, Inhabited

/-- FREE VALUE. The spelling of a register value in base 16, 2 or 8 (R193, D13; log 7). The base and the value the
string denotes are fixed all the same. Base 10 is fixed whole and does not use it. -/
opaque Config.spelling : Base → Word → Spelling

/-- FREE VALUE. What `ParseNumeral` answers for an input string whose fate the spec leaves OPEN: a number or failure
(R194, D14; log 8). -/
opaque Config.parseOpen : Base → Line → Option Nat

/-- FREE VALUE. The prompt string an input instruction hands to the console input (R195, D16; log 9). -/
opaque Config.prompt : Base → Reg → Line

end Sys2Proof
end

