-- ==== Sys2Proof/Machine/State.lean ====
section
/-! DEFINITION. The whole state of the machine as plain data, its faults, and its reset (spec/10_state.md, 60_exceptions.md R200). -/

namespace Sys2Proof.Machine

/-- The engine state `E` (R31). -/
inductive EngineState where
  /-- Cycles run (R100). -/
  | running
  /-- "once halted the engine performs no further cycles" (R31). -/
  | halted
  deriving DecidableEq, Repr

/-- Memory as a list of (address, byte) pairs in one canonical form: addresses strictly rising and below 4096, no byte
equal to 0, which is what an unlisted address reads as (R50; log 16). -/
abbrev Memory := List Host.Cell

/-- One completed transaction with a console collaborator (R214, R215; log 5). -/
inductive Transaction where
  /-- `writeLine(s)`: a string handed to the console output. -/
  | writeLine (s : Line)
  /-- `readLine(prompt) -> answer`: a prompt handed to the console input and the string that came back. -/
  | readLine (prompt answer : Line)
  deriving DecidableEq, Repr

/-- The state. The first six fields and `mem` are all the architecture gives (R20 to R32); the last three are the
model's own, the outside of the block as the engine meets it (log 3, log 5, log 6). -/
structure State where
  /-- The register file `x[0]` to `x[15]` (R20). -/
  x : Vector Word 16
  /-- The instruction pointer, without bound (R25, R26). -/
  pc : Nat
  /-- The index pointer `I`, without bound (R29). -/
  index : Nat
  /-- The call stack `S`, its top first (R30; log 17). -/
  stack : List Nat
  /-- The engine state `E` (R31). -/
  engine : EngineState
  /-- The memory `mem[0..4095]` (R50). -/
  mem : Memory
  /-- MODEL'S OWN: the strings the console input will answer, oldest first (R195, R215; log 3). -/
  consoleIn : List Line
  /-- MODEL'S OWN: the console transactions completed so far, oldest first (R214, R215, R223; log 5). -/
  transcript : List Transaction
  /-- MODEL'S OWN: how many random bytes have been drawn (R216; log 6). -/
  draws : Nat
  deriving DecidableEq, Repr

/-- The five fault statuses (R200). A fault is not a stop the model adds: each is a status the spec says the run call
returns to the host, so each is SAFE: the model stops exactly where the hardware does. -/
inductive Fault where
  /-- Raised by every cycle before decode when `pc > 4094`; records `pc` (R201). Safe. -/
  | fetchFault (pc : Nat)
  /-- Raised by SPILL and LOADB when `I + n > 4096`; records `I` and `n` (R202). Safe. -/
  | addressFault (i n : Nat)
  /-- Raised by RET on an empty call stack; records `pc` (R203). Safe. -/
  | stackUnderflow (pc : Nat)
  /-- Raised by CALL on a full stack, in a build with a finite capacity only; records `pc` (R204). Safe. -/
  | stackOverflow (pc : Nat)
  /-- Raised by the input instructions; records the base and the string read (R205). Safe. -/
  | inputParseFailure (base : Base) (s : Line)
  deriving DecidableEq, Repr

/-- Refusals. -/
inductive Refusal where
  /-- Raised by `exec` for an instruction that has no meaning yet; no arm uses it now. Safe. -/
  | notModelled (mnemonic : String)
  deriving DecidableEq, Repr

/-- What a cycle answers. -/
abbrev Result := Host.Outcome State Fault Refusal

/-- The machine right after reset, with no image loaded: every piece of architectural state is zero or empty and the
engine is Running (R230). The model's own fields start empty (DESIGN CHOICE, log 3, log 5, log 6). -/
def State.reset : State where
  x := Vector.replicate 16 0#64
  pc := 0
  index := 0
  stack := []
  engine := .running
  mem := []
  consoleIn := []
  transcript := []
  draws := 0

end Sys2Proof.Machine
end

