-- ==== Sys2Proof/Machine/Ops.lean ====
section
/-! DEFINITION. The named operations over memory, registers, the pc, the call stack and the collaborators, and raising a fault
(spec/00_scope.md R9 to R13). -/

namespace Sys2Proof.Machine

/-! ### Memory (R10, R50 to R58) -/

/-- The byte at an address: what the list says, or 0, the reset value of every byte (R50). The machine reads only
addresses below 4096; it tests `inRange` first (R54). -/
def Memory.read : Memory → Nat → Byte
  | [], _ => 0#8
  | (k, v) :: m, a => if k = a then v else Memory.read m a

/-- `mem[a] <- b`, keeping the canonical form: writing 0 removes the entry. -/
def Memory.write : Memory → Nat → Byte → Memory
  | [], a, b => if b = 0#8 then [] else [(a, b)]
  | (k, v) :: m, a, b =>
    if a < k then (if b = 0#8 then (k, v) :: m else (a, b) :: (k, v) :: m)
    else if a = k then (if b = 0#8 then m else (a, b) :: m)
    else (k, v) :: Memory.write m a b

/-- The canonical form from address `lo` up: addresses strictly rising from `lo`, all below 4096, no byte 0. -/
def Memory.wfFrom : Nat → Memory → Bool
  | _, [] => true
  | lo, (k, v) :: m => decide (lo ≤ k) && decide (k < Config.memSize) && v != 0#8 && Memory.wfFrom (k + 1) m

/-- The canonical form of memory (log 16). -/
def Memory.wf (m : Memory) : Bool := Memory.wfFrom 0 m

/-- `InRange(addr, n)`: `addr + n <= 4096` (R10). -/
def inRange (addr n : Nat) : Bool := decide (addr + n ≤ Config.memSize)

/-- Byte `j` of a value, byte 0 the least significant. -/
def byteOf (v j : Nat) : Byte := BitVec.ofNat 8 (v / 256 ^ j)

/-- `MemRead(addr, n)`: the `8n`-bit value whose most significant byte is at the lowest address (R10, R52). -/
def Memory.readBE (m : Memory) : (addr n : Nat) → Nat
  | _, 0 => 0
  | addr, n + 1 => (m.read addr).toNat * 256 ^ n + Memory.readBE m (addr + 1) n

/-- `MemWrite(addr, n, v)`: the most significant of `n` bytes goes to the lowest address, in increasing address order
(R10, R52, R61). -/
def Memory.writeBE (m : Memory) : (addr n v : Nat) → Memory
  | _, 0, _ => m
  | addr, n + 1, v => Memory.writeBE (m.write addr (byteOf v n)) (addr + 1) n v

/-- The bytes of a list at successive addresses, first byte lowest (R232). -/
def Memory.writeBytes : Memory → Nat → List Byte → Memory
  | m, _, [] => m
  | m, a, b :: bs => Memory.writeBytes (m.write a b) (a + 1) bs

/-! ### Registers (R20, R21, R24): ordinary, none hard-wired, so one plain read and one plain write -/

/-- `x[r]`. -/
def State.reg (s : State) (r : Reg) : Word := s.x[r.toNat]'r.isLt

/-- `x[r] <- v`. -/
def State.setReg (s : State) (r : Reg) (v : Word) : State := { s with x := s.x.set r.toNat v r.isLt }

/-! ### The other pieces of state -/

/-- `pc <- target`, exact (R26). -/
def State.setPc (s : State) (target : Nat) : State := { s with pc := target }

/-- `I <- v`, exact (R29). -/
def State.setIndex (s : State) (v : Nat) : State := { s with index := v }

/-- `push(S, v)` (R9). -/
def State.push (s : State) (v : Nat) : State := { s with stack := v :: s.stack }

/-- The stack without its top element, as `pop(S)` leaves it (R9). -/
def State.dropTop (s : State) : State := { s with stack := s.stack.tail }

/-- `E <- Halted` (R103). -/
def State.halt (s : State) : State := { s with engine := .halted }

/-- Memory replaced. -/
def State.setMem (s : State) (m : Memory) : State := { s with mem := m }

/-! ### Ending a cycle (R101, R102) -/

/-- The auto-advance: `pc <- pc + 2` (R102). -/
def State.advance (s : State) : State := s.setPc (s.pc + 2)

/-- The cycle completes with `advance` true. -/
def complete (s : State) : Result := .next s.advance

/-- The cycle completes with `advance` false: the handler has put `pc` at its final value (R102). -/
def transfer (s : State) (target : Nat) : Result := .next (s.setPc target)

/-- A skip: `pc <- pc + 2` when the condition holds, and the auto-advance in any case (R128). -/
def skipIf (c : Bool) (s : State) : Result :=
  complete (if c then s.setPc (s.pc + 2) else s)

/-! ### The collaborators (R13, R214 to R216) -/

/-- `ConsoleOut(s)`: the string is handed to the console output, in program order (R214). -/
def State.writeLine (s : State) (l : Line) : State :=
  { s with transcript := s.transcript ++ [.writeLine l] }

/-- `ConsoleIn(Prompt(b, X))` has answered: the oldest waiting string is consumed and the transaction recorded (R215). -/
def State.takeLine (s : State) (b : Base) (r : Reg) : State :=
  match s.consoleIn with
  | [] => s
  | l :: rest =>
    { s with consoleIn := rest, transcript := s.transcript ++ [.readLine (Config.prompt b r) l] }

/-- The byte the next `RandomByte()` returns: a FREE VALUE (R216; log 6). -/
def State.nextByte (s : State) : Byte := Config.randomByte s.draws

/-- One `RandomByte()` call has been made (R151). -/
def State.drawn (s : State) : State := { s with draws := s.draws + 1 }

/-! ### Fetching (R101) -/

/-- The two bytes at `pc`, or none at all when `pc > 4094` (R101, R201). -/
def State.fetchBytes (s : State) : List Byte :=
  if inRange s.pc 2 then [s.mem.read s.pc, s.mem.read (s.pc + 1)] else []

/-! ### Faults (R11, R206 to R208) -/

/-- `raise F(info)`: the cycle is abandoned before any write and the status goes to the host (R11). This one operation
is all of "taking an exception" on this machine: nothing is saved, no mode changes, control goes nowhere (R207). -/
def raise (f : Fault) : Result := .fault f

/-- The state the host finds after a rejected cycle: the state before it, unchanged (R105, R206). Outside the
architectural state, a failed input has consumed the string it read (R189, 91 N26). Running again from this state is
the retry of R208. The register index of the prompt is the X field of the word at `pc`. -/
def State.afterFault (s : State) : Fault → State
  | .fetchFault _ => s
  | .addressFault _ _ => s
  | .stackUnderflow _ => s
  | .stackOverflow _ => s
  | .inputParseFailure b _ => s.takeLine b (fieldX (BitVec.ofNat 16 (s.mem.readBE s.pc 2)))

/-- The status code of a fault (R200, D20). -/
def Fault.code : Fault → Nat
  | .fetchFault _ => 1
  | .addressFault _ _ => 2
  | .stackUnderflow _ => 3
  | .stackOverflow _ => 4
  | .inputParseFailure _ _ => 5

end Sys2Proof.Machine
end

