-- ==== Sys2Proof/Machine/Flags.lean ====
section
/-! DEFINITION. The flag computations: carry, no-borrow and the last bit shifted out (spec/42_register_alu.md R146 to R152). -/

namespace Sys2Proof.Machine

/-- ADD's test: "the wrapped sum is less than reg[X]" (R146). -/
def carryOut (sum a : Word) : Bool := decide (sum < a)

/-- SUB's and RSUB's test: the minuend is at least the subtrahend (R147, R149). -/
def noBorrow (minuend subtrahend : Word) : Bool := decide (subtrahend ≤ minuend)

/-- The last bit a right shift by `a >= 1` pushes out: bit `a - 1` (R148). -/
def bitOutRight (v : Word) (a : Nat) : Bool := v.getLsbD (a - 1)

/-- The last bit a left shift by `a >= 1` pushes out: bit `64 - a` (R150). -/
def bitOutLeft (v : Word) (a : Nat) : Bool := v.getLsbD (64 - a)

/-- `x[15] <- 0 or 1` (R22). -/
def State.setFlag (s : State) (b : Bool) : State := s.setReg Reg.vf (flagWord b)

end Sys2Proof.Machine
end

