-- ==== Sys2Proof/Machine/Operands.lean ====
section
/-! DEFINITION. The operand forms: immediates, addresses, shift amounts, register blocks and numerals
(spec/30_encoding.md R73; spec/44_console_io.md R193, R194). -/

namespace Sys2Proof.Machine

/-! ### Fields as operands (R73): every one is unsigned, none is scaled -/

/-- `zext_64(NN)`. -/
def zextNN (nn : BitVec 8) : Word := nn.setWidth 64

/-- `NNN` as an address or an offset, in `[0, 4095]`. -/
def addrNNN (nnn : BitVec 12) : Nat := nnn.toNat

/-- The shift amount of SHR and SHL under each `SHIFT_ENCODING` (R73, R148, 93 I8). -/
def shiftAmountOf (enc : ShiftEncoding) (a : BitVec 4) : Nat :=
  match enc with
  | .direct => a.toNat
  | .plusOne => a.toNat + 1

/-- The shift amount of this build. -/
def shiftAmount (a : BitVec 4) : Nat := shiftAmountOf Config.shiftEncoding a

/-! ### Register blocks (R56, R172, R173) -/

/-- How many registers `x[0] .. x[X]` are. -/
def blockCount (x : Reg) : Nat := x.toNat + 1

/-- `n = 8 * (X + 1)`, the bytes of the block. -/
def blockBytes (x : Reg) : Nat := 8 * blockCount x

/-- `for k in 0 .. count-1: MemWrite(I + 8*k, 8, x[k])`. -/
def storeRegs (s : State) : (count : Nat) → Memory
  | 0 => s.mem
  | k + 1 => (storeRegs s k).writeBE (s.index + 8 * k) 8 (s.reg (BitVec.ofNat 4 k)).toNat

/-- `for k in 0 .. count-1: x[k] <- MemRead(I + 8*k, 8)`. -/
def loadRegs (s : State) : (count : Nat) → State
  | 0 => s
  | k + 1 => (loadRegs s k).setReg (BitVec.ofNat 4 k) (BitVec.ofNat 64 (s.mem.readBE (s.index + 8 * k) 8))

/-! ### Numerals -/

/-- A digit's character: `0`-`9`, then lowercase letters (R193, the vectors' default). -/
def digitChar (d : Nat) : Char :=
  if d < 10 then Char.ofNat (48 + d) else Char.ofNat (87 + d)

/-- The shortest numeral of `v` in base `radix`, most significant digit first, "0" for zero. `fuel` bounds the digits. -/
def shortestNumeral (radix : Nat) : (fuel v : Nat) → Line
  | 0, _ => []
  | fuel + 1, v =>
    if v < radix then [digitChar v]
    else shortestNumeral radix fuel (v / radix) ++ [digitChar (v % radix)]

/-- The plain numeral of a register value: lowercase digits, no sign, no prefix, no padding (R193). A 64-bit value
has at most 64 digits in any of the four bases (R187). -/
def plainNumeral (b : Base) (v : Word) : Line := shortestNumeral b.radix 64 v.toNat

/-- A digit's character as a capital where it is a letter. -/
def capital (c : Char) : Char :=
  if 97 ≤ c.toNat ∧ c.toNat ≤ 122 then Char.ofNat (c.toNat - 32) else c

/-- The letter of a base's marker (R193: `0x`, `0b`, `0o`); base 10 has no marker and takes none. -/
def markerLetter : Base → Char
  | .hex => 'x'
  | .dec => 'd'
  | .bin => 'b'
  | .oct => 'o'

/-- A base's marker in a spelling, empty where the spelling has none. -/
def marker (f : Spelling) (b : Base) : Line :=
  if f.marked then ['0', if f.markerUpper then capital (markerLetter b) else markerLetter b] else []

/-- The digits of a value in a spelling: padding zeros, then the shortest numeral in the digit case. -/
def spelledDigits (f : Spelling) (b : Base) (v : Word) : Line :=
  List.replicate f.zeros '0' ++ (if f.upper then (plainNumeral b v).map capital else plainNumeral b v)

/-- The numeral of a value in a spelling: the unsigned value in the base, whatever the spelling (R193). -/
def spell (f : Spelling) (b : Base) (v : Word) : Line :=
  List.replicate f.before ' ' ++ marker f b ++ spelledDigits f b v ++ List.replicate f.after ' '

/-- `FormatNumeral(b, v)`: the value in the indicated base; in base 10 the shortest numeral, in the other bases in a
free spelling (R193, D13; log 7). -/
def formatNumeral (b : Base) (v : Word) : Line :=
  match b with
  | .dec => plainNumeral .dec v
  | .hex => spell (Config.spelling .hex v) .hex v
  | .bin => spell (Config.spelling .bin v) .bin v
  | .oct => spell (Config.spelling .oct v) .oct v

/-- What a character counts as a digit: `0`-`9`, and `a`-`f` or `A`-`F` for 10 to 15 (R194). -/
def charValue (c : Char) : Option Nat :=
  if 48 ≤ c.toNat ∧ c.toNat ≤ 57 then some (c.toNat - 48)
  else if 97 ≤ c.toNat ∧ c.toNat ≤ 102 then some (c.toNat - 87)
  else if 65 ≤ c.toNat ∧ c.toNat ≤ 70 then some (c.toNat - 55)
  else none

/-- The digit value of a character valid in base `b` (R194). -/
def digitValue (b : Base) (c : Char) : Option Nat :=
  match charValue c with
  | some d => if d < b.radix then some d else none
  | none => none

/-- The value of a string of digits all valid in base `b`, on top of what was read before it. -/
def digitsValue (b : Base) : (acc : Nat) → Line → Option Nat
  | acc, [] => some acc
  | acc, c :: cs =>
    match digitValue b c with
    | some d => digitsValue b (acc * b.radix + d) cs
    | none => none

/-- The string holds a decimal digit that base `b` does not have: a failure whatever else is in it (R191, R192). -/
def hasForeignDigit (b : Base) (s : Line) : Bool :=
  s.any fun c => decide (48 ≤ c.toNat) && decide (c.toNat ≤ 57) && decide (b.radix ≤ c.toNat - 48)

/-- `ParseNumeral(b, s)`: one or more digits all valid in base `b` are their value; a digit foreign to the base is a
failure; any other string is OPEN, a free answer (R194, D14; log 8). -/
def parseNumeral (b : Base) (s : Line) : Option Nat :=
  if s.isEmpty then Config.parseOpen b s
  else
    match digitsValue b 0 s with
    | some v => some v
    | none => if hasForeignDigit b s then none else Config.parseOpen b s

/-- The register value an input string gives: `none` is the failure "v is failure or v >= 2^64" (R189, R194). -/
def inputValue (b : Base) (s : Line) : Option Word :=
  match parseNumeral b s with
  | some v => if v < 2 ^ 64 then some (BitVec.ofNat 64 v) else none
  | none => none

end Sys2Proof.Machine
end

