-- ==== Sys2Proof/Machine/Alu.lean ====
section
/-! DEFINITION. Register and ALU instructions (spec/42_register_alu.md). Statements run in the written order, each on the state
the one before it left, so a flag written to VF is what a later statement reads there (R12, R154; log 13). -/

namespace Sys2Proof.Machine

/-- LDK Vx, NN (R140). -/
def execLdk (x : Reg) (nn : BitVec 8) (s : State) : Result := complete (s.setReg x (zextNN nn))

/-- ADDK Vx, NN: wraps, no flag (R141). -/
def execAddk (x : Reg) (nn : BitVec 8) (s : State) : Result := complete (s.setReg x (s.reg x + zextNN nn))

/-- MOV Vx, Vy (R142). -/
def execMov (x y : Reg) (s : State) : Result := complete (s.setReg x (s.reg y))

/-- OR Vx, Vy (R143). -/
def execOr (x y : Reg) (s : State) : Result := complete (s.setReg x (s.reg x ||| s.reg y))

/-- AND Vx, Vy (R144). -/
def execAnd (x y : Reg) (s : State) : Result := complete (s.setReg x (s.reg x &&& s.reg y))

/-- XOR Vx, Vy (R145). -/
def execXor (x y : Reg) (s : State) : Result := complete (s.setReg x (s.reg x ^^^ s.reg y))

/-- ADD Vx, Vy: the sum is taken first, then the flag is written, then the sum (R146). -/
def execAdd (x y : Reg) (s : State) : Result :=
  let sum := s.reg x + s.reg y
  complete ((s.setFlag (carryOut sum (s.reg x))).setReg x sum)

/-- The two statements SUB and RSUB share: the flag of `m - n`, then `x[m] <- x[m] -64 x[n]` read anew (R147, R149). -/
def subtractInto (m n : Reg) (s : State) : State :=
  let f := s.setFlag (noBorrow (s.reg m) (s.reg n))
  f.setReg m (f.reg m - f.reg n)

/-- SUB Vx, Vy (R147). -/
def execSub (x y : Reg) (s : State) : Result := complete (subtractInto x y s)

/-- RSUB Vx, Vy: the destination is `y` (R149). -/
def execRsub (x y : Reg) (s : State) : Result := complete (subtractInto y x s)

/-- SHR by an amount: 0 only clears the flag (R148). -/
def shiftRightBy (x : Reg) (a : Nat) (s : State) : State :=
  if a = 0 then s.setFlag false
  else
    let f := s.setFlag (bitOutRight (s.reg x) a)
    f.setReg x (f.reg x >>> a)

/-- SHL by an amount: 0 only clears the flag (R150). -/
def shiftLeftBy (x : Reg) (a : Nat) (s : State) : State :=
  if a = 0 then s.setFlag false
  else
    let f := s.setFlag (bitOutLeft (s.reg x) a)
    f.setReg x (f.reg x <<< a)

/-- SHR Vx, a (R148). -/
def execShr (x : Reg) (a : BitVec 4) (s : State) : Result := complete (shiftRightBy x (shiftAmount a) s)

/-- SHL Vx, a (R150). -/
def execShl (x : Reg) (a : BitVec 4) (s : State) : Result := complete (shiftLeftBy x (shiftAmount a) s)

/-- RAND Vx, NN: exactly one draw, masked (R151). -/
def execRand (x : Reg) (nn : BitVec 8) (s : State) : Result :=
  complete (s.drawn.setReg x (zextNN (s.nextByte &&& nn)))

end Sys2Proof.Machine
end

