-- ==== Sys2Proof/Machine/Console.lean ====
section
/-! DEFINITION. Console I/O instructions (spec/44_console_io.md). -/

namespace Sys2Proof.Machine

/-- `ConsoleOut(FormatNumeral(b, x[X]))` (R185 to R188). -/
def display (b : Base) (x : Reg) (s : State) : Result :=
  complete (s.writeLine (formatNumeral b (s.reg x)))

/-- OUTX Vx (R185). -/
def execOutx (x : Reg) (s : State) : Result := display .hex x s

/-- OUTD Vx (R186). -/
def execOutd (x : Reg) (s : State) : Result := display .dec x s

/-- OUTB Vx (R187). -/
def execOutb (x : Reg) (s : State) : Result := display .bin x s

/-- OUTO Vx (R188). -/
def execOuto (x : Reg) (s : State) : Result := display .oct x s

/-- `ConsoleIn` has no answer yet: the engine stays inside the input cycle and nothing changes (R195, R239, 93 I13;
log 4). -/
def waitForInput (s : State) : Result := .next s

/-- Read a string, parse it in base `b`, store it into `x[X]`; InputParseFailure when it does not parse or is too large
(R189 to R192). -/
def input (b : Base) (x : Reg) (s : State) : Result :=
  match s.consoleIn with
  | [] => waitForInput s
  | l :: _ =>
    match inputValue b l with
    | some v => complete ((s.takeLine b x).setReg x v)
    | none => raise (.inputParseFailure b l)

/-- INX Vx (R189). -/
def execInx (x : Reg) (s : State) : Result := input .hex x s

/-- IND Vx (R190). -/
def execInd (x : Reg) (s : State) : Result := input .dec x s

/-- INB Vx (R191). -/
def execInb (x : Reg) (s : State) : Result := input .bin x s

/-- INO Vx (R192). -/
def execIno (x : Reg) (s : State) : Result := input .oct x s

end Sys2Proof.Machine
end

