-- ==== Sys2Proof/Machine/Control.lean ====
section
/-! DEFINITION. Control transfer: return, jumps, call and skips (spec/41_control_transfer.md). -/

namespace Sys2Proof.Machine

/-- RET: `pc <- pop(S)`, then the auto-advance; StackUnderflow when `S` is empty (R120, R203). -/
def execRet (s : State) : Result :=
  match s.stack with
  | [] => raise (.stackUnderflow s.pc)
  | top :: _ => complete (s.dropTop.setPc top)

/-- JP NNN (R121). -/
def execJp (nnn : BitVec 12) (s : State) : Result := transfer s (addrNNN nnn)

/-- CALL in a build with call-stack capacity `cap`: StackOverflow on a full stack, else push the CALL's own address and
jump (R122, R204, D8). -/
def callWith (cap : Option Nat) (nnn : BitVec 12) (s : State) : Result :=
  if cap = some s.stack.length then raise (.stackOverflow s.pc)
  else transfer (s.push s.pc) (addrNNN nnn)

/-- CALL NNN (R122), with this build's capacity. -/
def execCall (nnn : BitVec 12) (s : State) : Result := callWith Config.callStackCapacity nnn s

/-- SEQK Vx, NN: all 64 bits are compared (R123). -/
def execSeqk (x : Reg) (nn : BitVec 8) (s : State) : Result := skipIf (s.reg x == zextNN nn) s

/-- SNEK Vx, NN (R124). -/
def execSnek (x : Reg) (nn : BitVec 8) (s : State) : Result := skipIf (s.reg x != zextNN nn) s

/-- SEQ Vx, Vy; the bottom nibble has no effect (R125). -/
def execSeq (x y : Reg) (_n : BitVec 4) (s : State) : Result := skipIf (s.reg x == s.reg y) s

/-- SNE Vx, Vy; the bottom nibble has no effect (R126). -/
def execSne (x y : Reg) (_n : BitVec 4) (s : State) : Result := skipIf (s.reg x != s.reg y) s

/-- JPV0 NNN: `x[0] + NNN`, exact on naturals (R127, D2). -/
def execJpv0 (nnn : BitVec 12) (s : State) : Result := transfer s ((s.reg Reg.v0).toNat + addrNNN nnn)

end Sys2Proof.Machine
end

