-- ==== Sys2Proof/Machine/Engine.lean ====
section
/-! DEFINITION. HALT, the no-op of an unrecognised word, and the halted engine (spec/40_engine.md R100 to R104). -/

namespace Sys2Proof.Machine

/-- HALT: `E <- Halted`, and the auto-advance (R103). -/
def execHalt (s : State) : Result := complete s.halt

/-- The no-op of an unrecognised word: nothing but the auto-advance (R104). -/
def execNoop (s : State) : Result := complete s

/-- A halted engine performs no cycle: whatever is asked of it, it stays as it is (R31, R100, R106, R222; log 1). -/
def stayHalted (s : State) : Result := .next s

end Sys2Proof.Machine
end

