-- ==== Sys2Proof/Machine/Index.lean ====
section
/-! DEFINITION. Index pointer and memory-block instructions (spec/43_index_memory.md). -/

namespace Sys2Proof.Machine

/-- SETI NNN (R170). -/
def execSeti (nnn : BitVec 12) (s : State) : Result := complete (s.setIndex (addrNNN nnn))

/-- ADDI Vx: exact on naturals (R171, D2). -/
def execAddi (x : Reg) (s : State) : Result := complete (s.setIndex (s.index + (s.reg x).toNat))

/-- SPILL Vx: the whole range is tested before the first byte is written (R172, R202). -/
def execSpill (x : Reg) (s : State) : Result :=
  if inRange s.index (blockBytes x) then complete (s.setMem (storeRegs s (blockCount x)))
  else raise (.addressFault s.index (blockBytes x))

/-- LOADB Vx: the whole range is tested before the first register is written (R173, R202). -/
def execLoadb (x : Reg) (s : State) : Result :=
  if inRange s.index (blockBytes x) then complete (loadRegs s (blockCount x))
  else raise (.addressFault s.index (blockBytes x))

end Sys2Proof.Machine
end

