-- ==== Sys2Proof/Machine/Dispatch.lean ====
section
/-! DEFINITION. One arm per instruction: `execute` and the end of its cycle (spec/40_engine.md R101). -/

namespace Sys2Proof.Machine

def exec (i : Instr) (s : State) : Host.Outcome State Fault Refusal :=
  match i with
  | .halt => Sys2Proof.Machine.execHalt s
  | .ret => Sys2Proof.Machine.execRet s
  | .jp nnn => Sys2Proof.Machine.execJp nnn s
  | .call nnn => Sys2Proof.Machine.execCall nnn s
  | .seqk x nn => Sys2Proof.Machine.execSeqk x nn s
  | .snek x nn => Sys2Proof.Machine.execSnek x nn s
  | .seq x y n => Sys2Proof.Machine.execSeq x y n s
  | .ldk x nn => Sys2Proof.Machine.execLdk x nn s
  | .addk x nn => Sys2Proof.Machine.execAddk x nn s
  | .mov x y => Sys2Proof.Machine.execMov x y s
  | .or x y => Sys2Proof.Machine.execOr x y s
  | .and x y => Sys2Proof.Machine.execAnd x y s
  | .xor x y => Sys2Proof.Machine.execXor x y s
  | .add x y => Sys2Proof.Machine.execAdd x y s
  | .sub x y => Sys2Proof.Machine.execSub x y s
  | .shr x a => Sys2Proof.Machine.execShr x a s
  | .rsub x y => Sys2Proof.Machine.execRsub x y s
  | .shl x a => Sys2Proof.Machine.execShl x a s
  | .sne x y n => Sys2Proof.Machine.execSne x y n s
  | .seti nnn => Sys2Proof.Machine.execSeti nnn s
  | .jpv0 nnn => Sys2Proof.Machine.execJpv0 nnn s
  | .rand x nn => Sys2Proof.Machine.execRand x nn s
  | .outx x => Sys2Proof.Machine.execOutx x s
  | .outd x => Sys2Proof.Machine.execOutd x s
  | .outb x => Sys2Proof.Machine.execOutb x s
  | .outo x => Sys2Proof.Machine.execOuto x s
  | .addi x => Sys2Proof.Machine.execAddi x s
  | .spill x => Sys2Proof.Machine.execSpill x s
  | .loadb x => Sys2Proof.Machine.execLoadb x s
  | .inx x => Sys2Proof.Machine.execInx x s
  | .ind x => Sys2Proof.Machine.execInd x s
  | .inb x => Sys2Proof.Machine.execInb x s
  | .ino x => Sys2Proof.Machine.execIno x s

end Sys2Proof.Machine
end

