-- ==== Sys2Proof/Machine/Step.lean ====
section
/-! DEFINITION. One cycle: the halted engine, the fetch, the decode, the execution (spec/40_engine.md R100, R101). -/

namespace Sys2Proof.Machine

/-- One cycle (R101), or none when the engine is halted (R100). The fetch fault is tested before decode (R209). -/
def step (s : State) : Host.Outcome State Fault Refusal :=
  match s.engine with
  | .halted => stayHalted s
  | .running =>
    match decodeBytes s.fetchBytes with
    | .instr i => exec i s
    | .unrecognised _ => execNoop s
    | .truncated => raise (.fetchFault s.pc)

/-- The instruction word `w` stored where `step` fetches next, the engine Running so that it fetches. Where `pc` is at
no fetchable address (`pc > 4094`) there is no such place and memory stays as it is. -/
def State.withFetchWord (s : State) (nbits w : Nat) : State :=
  if inRange s.pc 2 then
    { s with engine := .running, mem := s.mem.writeBytes s.pc (codeBytes (BitVec.ofNat 16 (w % 2 ^ nbits))) }
  else s

end Sys2Proof.Machine
end

