-- ==== Sys2Proof/Machine/RunControl.lean ====
section
/-! DEFINITION. The host's transactions with the engine: reset, load, run, observe (spec/40_engine.md R106, R107;
60_exceptions.md R217, R218; 70_reset_and_hazards.md R231, R232). `observe()` is the state itself (R34). -/

namespace Sys2Proof.Machine

/-- `reset()`: every piece of architectural state at its reset value, memory included; the collaborators (the model's
own fields) are not touched (R231). -/
def State.hostReset (s : State) : State :=
  { State.reset with consoleIn := s.consoleIn, transcript := s.transcript, draws := s.draws }

/-- `load(image)`: the bytes into memory from address 0; an image longer than 4096 bytes is refused, with no state
(R232, D23). R232 speaks of one load after a reset and before the first run. DESIGN CHOICE (log 25): in any other state,
a second load after the same reset among them, the image overlays memory and the bytes from its length up stay. -/
def State.load (s : State) (image : List Byte) : Option State :=
  if image.length ≤ Config.memSize then some (s.setMem (s.mem.writeBytes 0 image)) else none

/-- The next cycle is an input instruction whose console has not answered (R108, R239, 93 I13). -/
def State.waiting (s : State) : Bool :=
  match s.engine, s.consoleIn, decodeBytes s.fetchBytes with
  | .running, [], .instr (.inx _) => true
  | .running, [], .instr (.ind _) => true
  | .running, [], .instr (.inb _) => true
  | .running, [], .instr (.ino _) => true
  | _, _, _ => false

/-- What a run call has come to (R218). `blocked` is the call that has not returned: the engine waits for console input
(R239); `refused` is the model's own and never occurs, since no arm of `exec` refuses. -/
inductive RunStatus where
  /-- `E = Halted`. -/
  | halted
  /-- The requested number of cycles completed and `E = Running`. -/
  | budgetExhausted
  /-- A fault of R200. -/
  | fault (f : Fault)
  /-- Not returned: waiting inside an input cycle. -/
  | blocked
  /-- The model gives no meaning. -/
  | refused (r : Refusal)
  deriving DecidableEq, Repr

/-- `run(n)` for a finite budget, with the state it leaves: Halted is tested first, then the budget, then the cycle runs
(R106, R209). A completed cycle counts, a rejected one ends the call (R106). -/
def runFor : (n : Nat) → State → RunStatus × State
  | 0, s =>
    match s.engine with
    | .halted => (.halted, s)
    | .running => (.budgetExhausted, s)
  | n + 1, s =>
    match s.engine with
    | .halted => (.halted, s)
    | .running =>
      if s.waiting then (.blocked, s)
      else
        match step s with
        | .next t => runFor n t
        | .fault f => (.fault f, s.afterFault f)
        | .refused r => (.refused r, s)

/-- `run(Unbounded)` returns `st` and leaves `t`: some number of cycles ends the call by itself (R106). -/
def RunsTo (s : State) (st : RunStatus) (t : State) : Prop :=
  ∃ n, runFor n s = (st, t) ∧ st ≠ .budgetExhausted ∧ st ≠ .blocked

end Sys2Proof.Machine
end

