-- ==== Sys2Proof/Safety.lean ====
section
/-! DEFINITION. The terms in which claims are stated: what two states have in common, the invariant of the machine, what a run may do. -/

namespace Sys2Proof.Machine

/-- Every register but the listed ones reads as before. -/
def RegsKept (s t : State) (written : List Reg) : Prop :=
  ∀ r : Reg, r ∉ written → t.reg r = s.reg r

/-- Every byte of memory reads as before. -/
def MemKept (s t : State) : Prop :=
  ∀ a : Nat, t.mem.read a = s.mem.read a

/-- Every byte of memory outside the `n` bytes from `base` reads as before. -/
def MemKeptOutside (s t : State) (base n : Nat) : Prop :=
  ∀ a : Nat, (a < base ∨ base + n ≤ a) → t.mem.read a = s.mem.read a

/-- The index pointer, the call stack and the engine state are as before. -/
def ControlKept (s t : State) : Prop :=
  t.index = s.index ∧ t.stack = s.stack ∧ t.engine = s.engine

/-- The collaborators are as before: no string consumed, no transaction, no draw. -/
def OutsideKept (s t : State) : Prop :=
  t.consoleIn = s.consoleIn ∧ t.transcript = s.transcript ∧ t.draws = s.draws

/-- The frame of an instruction that writes only the listed registers (and the pc). -/
def RegisterFrame (s t : State) (written : List Reg) : Prop :=
  RegsKept s t written ∧ ControlKept s t ∧ MemKept s t ∧ OutsideKept s t

/-- All the spec's own state is equal; the model's own fields may differ. -/
def SameArchitecture (s t : State) : Prop :=
  t.x = s.x ∧ t.pc = s.pc ∧ t.index = s.index ∧ t.stack = s.stack ∧ t.engine = s.engine ∧ t.mem = s.mem

/-- The invariant of the machine: memory keeps its canonical form, and every address on the call stack is one an
instruction can be fetched from (CALL pushes its own, R122). -/
abbrev State.Inv (s : State) : Prop :=
  s.mem.wf = true ∧ ∀ v ∈ s.stack, v ≤ 4094

/-- The word at `pc`: `concat(mem[pc], mem[pc+1])` (R101). -/
def State.word (s : State) : Code := s.mem.read s.pc ++ s.mem.read (s.pc + 1)

/-- The next cycle fetches: the engine runs and both bytes exist (R100, R101). -/
def State.fetches (s : State) : Prop := s.engine = .running ∧ s.pc ≤ 4094

/-- Every character of the string is a digit valid in base `b`, and there is at least one (R194). -/
def IsNumeral (b : Base) (l : Line) : Prop :=
  l ≠ [] ∧ ∀ c ∈ l, ∃ d, charValue c = some d ∧ d < b.radix

/-- The value of a numeral, its most significant digit first; a character that is no digit counts 0. -/
def numeralValue (b : Base) (l : Line) : Nat :=
  l.foldl (fun acc c => acc * b.radix + (charValue c).getD 0) 0

/-- The string denotes the value in base `b`: between blanks, an optional base marker and then digits valid in the base
whose value it is. There is no sign (R193). -/
def Denotes (b : Base) (l : Line) (v : Nat) : Prop :=
  ∃ pre mark digits post : Line, l = pre ++ mark ++ digits ++ post ∧ (∀ c ∈ pre ++ post, c = ' ') ∧
    (mark = [] ∨ mark = ['0', markerLetter b] ∨ mark = ['0', capital (markerLetter b)]) ∧
    IsNumeral b digits ∧ numeralValue b digits = v

/-- The state a cycle completed with, if it did. -/
def nextState (r : Result) : Option State :=
  match r with
  | .next t => some t
  | .fault _ => none
  | .refused _ => none

/-- The fault a cycle was rejected with, if it was. -/
def faultOf (r : Result) : Option Fault :=
  match r with
  | .next _ => none
  | .fault f => some f
  | .refused _ => none

/-- The registers an instruction names as its destination (R22, R149, R173). -/
def destination (i : Instr) (r : Reg) : Bool :=
  match i with
  | .halt => false
  | .ret => false
  | .jp _ => false
  | .call _ => false
  | .seqk _ _ => false
  | .snek _ _ => false
  | .seq _ _ _ => false
  | .ldk x _ => decide (r = x)
  | .addk x _ => decide (r = x)
  | .mov x _ => decide (r = x)
  | .or x _ => decide (r = x)
  | .and x _ => decide (r = x)
  | .xor x _ => decide (r = x)
  | .add x _ => decide (r = x)
  | .sub x _ => decide (r = x)
  | .shr x _ => decide (r = x)
  | .rsub _ y => decide (r = y)
  | .shl x _ => decide (r = x)
  | .sne _ _ _ => false
  | .seti _ => false
  | .jpv0 _ => false
  | .rand x _ => decide (r = x)
  | .outx _ => false
  | .outd _ => false
  | .outb _ => false
  | .outo _ => false
  | .addi _ => false
  | .spill _ => false
  | .loadb x => decide (r.toNat ≤ x.toNat)
  | .inx x => decide (r = x)
  | .ind x => decide (r = x)
  | .inb x => decide (r = x)
  | .ino x => decide (r = x)

/-- The five instructions that write `x[15]` as a side effect (R22). -/
def setsFlag (i : Instr) : Bool :=
  match i with
  | .halt => false
  | .ret => false
  | .jp _ => false
  | .call _ => false
  | .seqk _ _ => false
  | .snek _ _ => false
  | .seq _ _ _ => false
  | .ldk _ _ => false
  | .addk _ _ => false
  | .mov _ _ => false
  | .or _ _ => false
  | .and _ _ => false
  | .xor _ _ => false
  | .add _ _ => true
  | .sub _ _ => true
  | .shr _ _ => true
  | .rsub _ _ => true
  | .shl _ _ => true
  | .sne _ _ _ => false
  | .seti _ => false
  | .jpv0 _ => false
  | .rand _ _ => false
  | .outx _ => false
  | .outd _ => false
  | .outb _ => false
  | .outo _ => false
  | .addi _ => false
  | .spill _ => false
  | .loadb _ => false
  | .inx _ => false
  | .ind _ => false
  | .inb _ => false
  | .ino _ => false

/-- Where `pc` is after a completed cycle of each instruction (R27). -/
def PcAfter (i : Instr) (s : State) (n : Nat) : Prop :=
  match i with
  | .halt => n = s.pc + 2
  | .ret => ∃ top rest, s.stack = top :: rest ∧ n = top + 2
  | .jp nnn => n = nnn.toNat
  | .call nnn => n = nnn.toNat
  | .seqk x nn => n = if (s.reg x).toNat = nn.toNat then s.pc + 4 else s.pc + 2
  | .snek x nn => n = if (s.reg x).toNat = nn.toNat then s.pc + 2 else s.pc + 4
  | .seq x y _ => n = if s.reg x = s.reg y then s.pc + 4 else s.pc + 2
  | .ldk _ _ => n = s.pc + 2
  | .addk _ _ => n = s.pc + 2
  | .mov _ _ => n = s.pc + 2
  | .or _ _ => n = s.pc + 2
  | .and _ _ => n = s.pc + 2
  | .xor _ _ => n = s.pc + 2
  | .add _ _ => n = s.pc + 2
  | .sub _ _ => n = s.pc + 2
  | .shr _ _ => n = s.pc + 2
  | .rsub _ _ => n = s.pc + 2
  | .shl _ _ => n = s.pc + 2
  | .sne x y _ => n = if s.reg x = s.reg y then s.pc + 2 else s.pc + 4
  | .seti _ => n = s.pc + 2
  | .jpv0 nnn => n = (s.reg Reg.v0).toNat + nnn.toNat
  | .rand _ _ => n = s.pc + 2
  | .outx _ => n = s.pc + 2
  | .outd _ => n = s.pc + 2
  | .outb _ => n = s.pc + 2
  | .outo _ => n = s.pc + 2
  | .addi _ => n = s.pc + 2
  | .spill _ => n = s.pc + 2
  | .loadb _ => n = s.pc + 2
  | .inx _ => n = s.pc + 2
  | .ind _ => n = s.pc + 2
  | .inb _ => n = s.pc + 2
  | .ino _ => n = s.pc + 2

/-- The failure of the next input string in base `b`, if there is a next one and it fails (R189 to R192). -/
def inputFault (b : Base) (s : State) : Option Fault :=
  match s.consoleIn with
  | [] => none
  | l :: _ => if inputValue b l = none then some (.inputParseFailure b l) else none

/-- The one fault each instruction can raise, and when (R200; CALL in the reference has none). -/
def expectedFault (i : Instr) (s : State) : Option Fault :=
  match i with
  | .halt => none
  | .ret => if s.stack = [] then some (.stackUnderflow s.pc) else none
  | .jp _ => none
  | .call _ => none
  | .seqk _ _ => none
  | .snek _ _ => none
  | .seq _ _ _ => none
  | .ldk _ _ => none
  | .addk _ _ => none
  | .mov _ _ => none
  | .or _ _ => none
  | .and _ _ => none
  | .xor _ _ => none
  | .add _ _ => none
  | .sub _ _ => none
  | .shr _ _ => none
  | .rsub _ _ => none
  | .shl _ _ => none
  | .sne _ _ _ => none
  | .seti _ => none
  | .jpv0 _ => none
  | .rand _ _ => none
  | .outx _ => none
  | .outd _ => none
  | .outb _ => none
  | .outo _ => none
  | .addi _ => none
  | .spill x => if 4096 < s.index + 8 * (x.toNat + 1) then some (.addressFault s.index (8 * (x.toNat + 1))) else none
  | .loadb x => if 4096 < s.index + 8 * (x.toNat + 1) then some (.addressFault s.index (8 * (x.toNat + 1))) else none
  | .inx _ => inputFault .hex s
  | .ind _ => inputFault .dec s
  | .inb _ => inputFault .bin s
  | .ino _ => inputFault .oct s

/-- Byte `o` of the register block `x[0], x[1], ...`: 8 bytes a register, the most significant first (R52, R172). -/
def blockByte (s : State) (o : Nat) : Byte :=
  (s.reg (BitVec.ofNat 4 (o / 8))).extractLsb' (8 * (7 - o % 8)) 8

/-- The strings handed to the console output, oldest first: the `writeLine` transactions of a transcript (R214). -/
def writtenLines (ts : List Transaction) : List Line :=
  ts.filterMap fun
    | .writeLine l => some l
    | .readLine _ _ => none

/-- A cycle's answer with the state it carries changed; a fault stays as it is. -/
def mapNext (g : State → State) (r : Result) : Result :=
  match r with
  | .next t => .next (g t)
  | .fault f => .fault f
  | .refused q => .refused q

/-- The frame of an input instruction that read the string `l`: `x` written, the string consumed, the transaction
recorded, the pc advanced, and nothing else (R189 to R192, R215). -/
def InputFrame (b : Base) (x : Reg) (s t : State) (l : Line) (rest : List Line) : Prop :=
  RegsKept s t [x] ∧ ControlKept s t ∧ MemKept s t ∧ t.pc = s.pc + 2 ∧ t.consoleIn = rest ∧
    t.transcript = s.transcript ++ [.readLine (Config.prompt b x) l] ∧ t.draws = s.draws

/-- The frame of an output instruction that handed the string `l` to the console: the pc advanced and nothing else
(R185 to R188, R214). -/
def OutputFrame (s t : State) (l : Line) : Prop :=
  RegsKept s t [] ∧ ControlKept s t ∧ MemKept s t ∧ t.pc = s.pc + 2 ∧ t.consoleIn = s.consoleIn ∧
    t.transcript = s.transcript ++ [.writeLine l] ∧ t.draws = s.draws

end Sys2Proof.Machine
end

