-- ==== Sys2Proof/Certificates/Slice0/Obligations.lean ====
section
/-! DEFINITION. The statements for the provers. Each docstring names the rules of spec/ it formalises. -/

open Sys2Proof Sys2Proof.Machine

/-! ### Reset, load, run -/

/-- R230: the state after reset. -/
def Obligations.ResetZeroesTheMachine : Prop :=
  (∀ r : Reg, State.reset.reg r = 0#64) ∧ State.reset.pc = 0 ∧ State.reset.index = 0 ∧ State.reset.stack = [] ∧
    State.reset.engine = .running ∧ ∀ a : Nat, a < 4096 → State.reset.mem.read a = 0#8

/-- R231: the host's reset sets every piece of architectural state to its reset value, whatever it was, and does not
touch the collaborators. -/
def Obligations.HostResetRebuildsTheZeroState : Prop :=
  ∀ s : State, SameArchitecture State.reset s.hostReset ∧ OutsideKept s s.hostReset

/-- R234: reset and run with no image: the first cycle halts with `pc = 2`, every other state at its reset value. -/
def Obligations.RunWithoutImageHaltsAtTwo : Prop :=
  ∀ s : State, s.hostReset.word = 0x0000#16 ∧ ∃ t : State,
    step s.hostReset = .next t ∧ RunsTo s.hostReset .halted t ∧ t.engine = .halted ∧ t.pc = 2 ∧
      (∀ r : Reg, t.reg r = 0#64) ∧ t.index = 0 ∧ t.stack = [] ∧ (∀ a : Nat, a < 4096 → t.mem.read a = 0#8) ∧
      OutsideKept s t

/-- R232: the image lands at offset 0, the rest of memory stays 0, and a longer image is refused. The clause `t.mem.wf`
is about the model's own representation of memory (log 16). -/
def Obligations.LoadPlacesTheImage : Prop :=
  ∀ (s : State) (image : List Byte),
    (image.length ≤ 4096 → ∃ t : State, s.hostReset.load image = some t ∧
      (∀ (k : Nat) (h : k < image.length), t.mem.read k = image[k]) ∧
      (∀ a : Nat, image.length ≤ a → a < 4096 → t.mem.read a = 0#8) ∧
      t.mem.wf = true ∧ RegsKept s.hostReset t [] ∧ t.pc = 0 ∧ ControlKept s.hostReset t ∧ OutsideKept s t) ∧
    (4096 < image.length → s.hostReset.load image = none)

/-- R107: a run split into batches reaches what one run reaches; a batch that ends in anything but its budget ends
the whole run there. The status `blocked`, a call that has not returned, is the model's own (log 4, log 21). -/
def Obligations.RunSplitsIntoBatches : Prop :=
  ∀ (a b : Nat) (s : State),
    (∀ t, runFor a s = (.budgetExhausted, t) → runFor (a + b) s = runFor b t) ∧
    (∀ st t, runFor a s = (st, t) → st ≠ .budgetExhausted → runFor (a + b) s = (st, t))

/-- R218: an unbounded run returns one status and leaves one state, and never with its budget exhausted. -/
def Obligations.UnboundedRunHasOneResult : Prop :=
  ∀ (s : State) (st st' : RunStatus) (t t' : State),
    RunsTo s st t → RunsTo s st' t' → st = st' ∧ t = t' ∧ st ≠ .budgetExhausted

/-! ### The invariant -/

/-- The invariant holds at reset. -/
def Obligations.ResetMeetsTheInvariant : Prop := State.reset.Inv

/-- Every step keeps the invariant: memory in canonical form, and every address on the call stack fetchable. -/
def Obligations.StepKeepsTheInvariant : Prop :=
  ∀ s t : State, s.Inv → step s = .next t → t.Inv

/-- A rejected cycle keeps the invariant in the state the host finds after it. -/
def Obligations.FaultKeepsTheInvariant : Prop :=
  ∀ (s : State) (f : Fault), s.Inv → step s = .fault f → (s.afterFault f).Inv

/-! ### Encoding -/

/-- Decoding the word of any instruction gives it back, with every operand value; among them the ignored nibble of SEQ and
SNE, which the syntax carries by the model's choice (log 14). -/
def Obligations.DecodeInvertsEncode : Prop :=
  ∀ i : Instr, decode (encode i) = .instr i

/-- Encoding what a word decodes to gives the word back: each word has one meaning and no bit is dropped. For `5XYn` and
`9XYn` this rests on the model's choice to carry the ignored nibble in the syntax (log 14); R82's assembler emits
`n = 0`. -/
def Obligations.EncodeInvertsDecode : Prop :=
  ∀ (w : Code) (i : Instr), decode w = .instr i → encode i = w

/-- R75: "No word matches two rows". -/
def Obligations.NoWordMatchesTwoRows : Prop :=
  ∀ (w : Code) (r q : OpcodeRow), r ∈ opcodeTable → q ∈ opcodeTable → r.matches w = true → q.matches w = true → r = q

/-- The decoder of R74 and the opcode table of R75 agree: a word matches a row exactly when it decodes to an
instruction of that row. -/
def Obligations.DecoderAgreesWithTheTable : Prop :=
  ∀ (w : Code) (r : OpcodeRow), r ∈ opcodeTable →
    (r.matches w = true ↔ ∃ i, decode w = .instr i ∧ i.row = r)

/-- R78's list of the unrecognised words, family by family. -/
def Obligations.UnrecognisedWordsAreTheListed : Prop :=
  ∀ w : Code, (decode w = .unrecognised w ↔
    (fieldT w = 0x0#4 ∧ w ≠ 0x0000#16 ∧ w ≠ 0x01EE#16) ∨
    (fieldT w = 0x8#4 ∧ fieldN w ∈ [0x8#4, 0x9#4, 0xA#4, 0xB#4, 0xC#4, 0xD#4, 0xF#4]) ∨
    (fieldT w = 0xD#4 ∧ fieldNN w ∉ [0x00#8, 0x01#8, 0x02#8, 0x03#8]) ∨
    (fieldT w = 0xE#4 ∧ fieldNN w ∉ [0x1E#8, 0x55#8, 0x65#8]) ∨
    (fieldT w = 0xF#4 ∧ fieldNN w ∉ [0x00#8, 0x01#8, 0x02#8, 0x03#8]))

/-- A few words written out from R75 decode to what they stand for. -/
def Obligations.SampleWordsDecode : Prop :=
  decode 0x01EE#16 = .instr .ret ∧ decode 0x2400#16 = .instr (.call 0x400#12) ∧
    decode 0x5AB7#16 = .instr (.seq 0xA#4 0xB#4 0x7#4) ∧ decode 0x8AB7#16 = .instr (.rsub 0xA#4 0xB#4) ∧
    decode 0x8A1E#16 = .instr (.shl 0xA#4 0x1#4) ∧ decode 0xE155#16 = .instr (.spill 0x1#4) ∧
    decode 0xDA13#16 = .unrecognised 0xDA13#16 ∧ decode 0x00EE#16 = .unrecognised 0x00EE#16

/-- An instruction stored in memory by its encoding is the one the next cycle runs. -/
def Obligations.EncodedInstructionRunsNext : Prop :=
  ∀ (s : State) (i : Instr), s.mem.wf = true → s.pc ≤ 4094 →
    step (s.withFetchWord 16 (encode i).toNat) = exec i (s.withFetchWord 16 (encode i).toNat)

/-! ### The cycle -/

/-- When the bytes at `pc` decode to an instruction, the step is that instruction's: nothing is added around it. -/
def Obligations.StepRunsTheDecodedInstruction : Prop :=
  ∀ (s : State) (i : Instr), s.fetches → decode s.word = .instr i → step s = exec i s

/-- R70: the word fetched is `concat(mem[pc], mem[pc+1])`, which is `MemRead(pc, 2)` (R10). -/
def Obligations.FetchReadsTheBigEndianWord : Prop :=
  ∀ s : State, s.pc ≤ 4094 →
    s.word.toNat = s.mem.readBE s.pc 2 ∧ s.word.toNat = (s.mem.read s.pc).toNat * 256 + (s.mem.read (s.pc + 1)).toNat ∧
      decodeBytes s.fetchBytes = decode s.word

/-- R104: an unrecognised word has no effect but the auto-advance, and counts against the budget. -/
def Obligations.UnrecognisedWordIsANoOp : Prop :=
  ∀ (s : State) (w : Code), s.fetches → decode s.word = .unrecognised w →
    ∃ t, step s = .next t ∧ t.pc = s.pc + 2 ∧ RegisterFrame s t [] ∧ ∀ n, runFor (n + 1) s = runFor n t

/-- R201: a fetch needs `pc <= 4094`; else the cycle is rejected with FetchFault and nothing changes. -/
def Obligations.FetchPastTheEndFaults : Prop :=
  ∀ s : State, s.engine = .running → 4094 < s.pc →
    step s = .fault (.fetchFault s.pc) ∧ s.afterFault (.fetchFault s.pc) = s ∧
      ∀ n, runFor (n + 1) s = (.fault (.fetchFault s.pc), s)

/-- The halted engine performs no cycle; that `step` then answers the same state is the model's form of it (log 1). -/
def Obligations.HaltedEngineStaysHalted : Prop :=
  ∀ s : State, s.engine = .halted → step s = .next s ∧ ∀ n, runFor n s = (.halted, s)

/-- R31: the engine starts Running, halts only on the all-zero word, and nothing but the host's reset leaves Halted;
a fault leaves it Running. -/
def Obligations.OnlyTheZeroWordHalts : Prop :=
  State.reset.engine = .running ∧
    (∀ s t : State, s.engine = .running → step s = .next t → (t.engine = .halted ↔ s.word = 0x0000#16)) ∧
    (∀ s t : State, s.engine = .halted → step s = .next t → t.engine = .halted) ∧
    (∀ (s : State) (f : Fault), step s = .fault f → (s.afterFault f).engine = .running) ∧
    (∀ s : State, s.hostReset.engine = .running)

/-- No step and no instruction is refused. -/
def Obligations.NothingIsRefused : Prop :=
  (∀ (i : Instr) (s : State) (r : Refusal), exec i s ≠ .refused r) ∧ ∀ (s : State) (r : Refusal), step s ≠ .refused r

/-- R200, R209: exactly which fault a cycle raises, with its condition, its info and its code; CALL overflows at a
capacity the stack has reached and at no other. -/
def Obligations.FaultsAreTheTabledOnes : Prop :=
  (∀ (i : Instr) (s : State), faultOf (exec i s) = expectedFault i s) ∧
    (∀ s : State, faultOf (step s) =
      if s.engine = .halted then none
      else if 4094 < s.pc then some (.fetchFault s.pc)
      else match decode s.word with
        | .instr i => expectedFault i s
        | .unrecognised _ => none
        | .truncated => none) ∧
    (∀ (cap : Option Nat) (nnn : BitVec 12) (s : State), faultOf (callWith cap nnn s) =
      if cap = some s.stack.length then some (.stackOverflow s.pc) else none) ∧
    (∀ a b : Nat, (Fault.fetchFault a).code = 1 ∧ (Fault.addressFault a b).code = 2 ∧ (Fault.stackUnderflow a).code = 3 ∧
      (Fault.stackOverflow a).code = 4) ∧ ∀ b l, (Fault.inputParseFailure b l).code = 5

/-- R206: a fault leaves no trace in the state; no output reached the console (the strings written to it are the same
list as before), and the cycle does not count. -/
def Obligations.FaultLeavesNoTrace : Prop :=
  ∀ (s : State) (f : Fault), step s = .fault f →
    SameArchitecture s (s.afterFault f) ∧ (s.afterFault f).engine = .running ∧
      writtenLines (s.afterFault f).transcript = writtenLines s.transcript ∧
      ∀ n, runFor (n + 1) s = (.fault f, s.afterFault f)

/-- Running again after a fault retries the rejected cycle: every fault but a failed input recurs at once, and a failed
input reads the next string, with which it may now succeed (R205, R208). That the failed string is consumed is R189 for
INX and DEDUCED for the others (log 2); that its transaction stands in the transcript is the model's form (log 5). -/
def Obligations.RetryRecursUnlessInput : Prop :=
  ∀ (s : State) (f : Fault), step s = .fault f →
    ((∀ b l, f ≠ .inputParseFailure b l) → s.afterFault f = s ∧ step (s.afterFault f) = .fault f) ∧
    (∀ b l, f = .inputParseFailure b l → ∃ rest, s.consoleIn = l :: rest ∧ (s.afterFault f).consoleIn = rest ∧
      (s.afterFault f).transcript = s.transcript ++ [.readLine (Config.prompt b (fieldX s.word)) l] ∧
      (∀ l' rest', rest = l' :: rest' → inputValue b l' = none →
        step (s.afterFault f) = .fault (.inputParseFailure b l')) ∧
      (∀ l' rest' v, rest = l' :: rest' → inputValue b l' = some v →
        ∃ t, step (s.afterFault f) = .next t ∧ t.reg (fieldX s.word) = v ∧ t.pc = s.pc + 2))

/-- R27: where `pc` goes in a completed cycle. A cycle that waits for console input has not completed (log 4). -/
def Obligations.PcMovesAsTabled : Prop :=
  ∀ s t : State, s.fetches → s.waiting = false → step s = .next t →
    (∀ i, decode s.word = .instr i → PcAfter i s t.pc) ∧ (∀ w, decode s.word = .unrecognised w → t.pc = s.pc + 2)

/-- R51: of the instructions only SPILL writes memory, and only LOADB's effect depends on it. -/
def Obligations.OnlyBlockInstructionsAccessMemory : Prop :=
  (∀ (i : Instr) (s t : State), (∀ x, i ≠ .spill x) → exec i s = .next t → MemKept s t) ∧
    (∀ (i : Instr) (s : State) (m : Memory), (∀ x, i ≠ .spill x) → (∀ x, i ≠ .loadb x) →
      exec i (s.setMem m) = mapNext (fun t => t.setMem m) (exec i s)) ∧
    (∀ (x : Reg) (s : State) (m : Memory),
      mapNext (fun t => t.setMem m) (exec (.spill x) (s.setMem m)) = mapNext (fun t => t.setMem m) (exec (.spill x) s))

/-- R29: only SETI and ADDI write `I`, and only ADDI, SPILL and LOADB read it. -/
def Obligations.IndexPointerAccess : Prop :=
  State.reset.index = 0 ∧
    (∀ (i : Instr) (s t : State), (∀ n, i ≠ .seti n) → (∀ x, i ≠ .addi x) → exec i s = .next t → t.index = s.index) ∧
    (∀ (i : Instr) (s : State) (n : Nat), (∀ k, i ≠ .seti k) → (∀ x, i ≠ .addi x) → (∀ x, i ≠ .spill x) →
      (∀ x, i ≠ .loadb x) → exec i (s.setIndex n) = mapNext (fun t => t.setIndex n) (exec i s)) ∧
    (∀ (k : BitVec 12) (s : State) (n : Nat), exec (.seti k) (s.setIndex n) = exec (.seti k) s)

/-- R30: only CALL and RET touch the call stack; CALL pushes and RET pops, last in, first out. That the value pushed is
the CALL's own address is R122 by the spec's decision D6 (log 18). -/
def Obligations.OnlyCallAndRetTouchTheStack : Prop :=
  (∀ (i : Instr) (s t : State), (∀ n, i ≠ .call n) → i ≠ .ret → exec i s = .next t → t.stack = s.stack) ∧
    (∀ (i : Instr) (s : State) (st : List Nat), (∀ n, i ≠ .call n) → i ≠ .ret →
      exec i { s with stack := st } = mapNext (fun t => { t with stack := st }) (exec i s)) ∧
    (∀ (n : BitVec 12) (s t : State), exec (.call n) s = .next t → t.stack = s.pc :: s.stack) ∧
    (∀ s t : State, exec .ret s = .next t → ∃ top, s.stack = top :: t.stack)

/-- R22: exactly five instructions write `x[15]` beside their destination, each 0 or 1; no register changes otherwise
unless the instruction names it as its destination. -/
def Obligations.OnlyFiveInstructionsSetTheFlag : Prop :=
  ∀ (i : Instr) (s t : State), exec i s = .next t →
    (∀ r : Reg, destination i r = false → (r ≠ Reg.vf ∨ setsFlag i = false) → t.reg r = s.reg r) ∧
    (setsFlag i = true → destination i Reg.vf = false → t.reg Reg.vf = 0#64 ∨ t.reg Reg.vf = 1#64)

/-! ### HALT and control transfer -/

/-- R103. -/
def Obligations.HaltStopsTheEngine : Prop :=
  ∀ s : State, ∃ t, exec .halt s = .next t ∧ t.engine = .halted ∧ t.pc = s.pc + 2 ∧ RegsKept s t [] ∧
    t.index = s.index ∧ t.stack = s.stack ∧ MemKept s t ∧ OutsideKept s t ∧ ∀ n, runFor n t = (.halted, t)

/-- R120: RET pops and advances; on an empty stack it faults. -/
def Obligations.RetReturnsPastTheCall : Prop :=
  (∀ (s : State) (top : Nat) (rest : List Nat), s.stack = top :: rest →
    ∃ t, exec .ret s = .next t ∧ t.pc = top + 2 ∧ t.stack = rest ∧ RegsKept s t [] ∧ t.index = s.index ∧
      t.engine = s.engine ∧ MemKept s t ∧ OutsideKept s t) ∧
  (∀ s : State, s.stack = [] → exec .ret s = .fault (.stackUnderflow s.pc))

/-- R121 and R127: JP goes to `NNN`, JPV0 to the exact sum `x[0] + NNN`; nothing else changes. -/
def Obligations.JumpsSetOnlyThePc : Prop :=
  ∀ (s : State) (nnn : BitVec 12),
    (∃ t, exec (.jp nnn) s = .next t ∧ t.pc = nnn.toNat ∧ RegisterFrame s t []) ∧
    (∃ t, exec (.jpv0 nnn) s = .next t ∧ t.pc = (s.reg Reg.v0).toNat + nnn.toNat ∧ RegisterFrame s t [])

/-- R122 and R204: CALL pushes its own address and jumps; only a full stack of a finite build faults. -/
def Obligations.CallPushesItsOwnAddress : Prop :=
  ∀ (s : State) (nnn : BitVec 12), ∃ t, exec (.call nnn) s = .next t ∧ t.pc = nnn.toNat ∧ t.stack = s.pc :: s.stack ∧
    RegsKept s t [] ∧ t.index = s.index ∧ t.engine = s.engine ∧ MemKept s t ∧ OutsideKept s t ∧
    (∀ cap : Option Nat, cap ≠ some s.stack.length → callWith cap nnn s = .next t) ∧
    callWith (some s.stack.length) nnn s = .fault (.stackOverflow s.pc)

/-- A CALL and the RET that answers it come back past the CALL with the stack as it was, whatever ran in between left
the stack as CALL did. -/
def Obligations.CallThenRetComesBack : Prop :=
  ∀ (s t u : State) (nnn : BitVec 12), exec (.call nnn) s = .next t → u.stack = t.stack →
    ∃ v, exec .ret u = .next v ∧ v.pc = s.pc + 2 ∧ v.stack = s.stack

/-- R123 to R126 and R128: the four skips; they write nothing but the pc. -/
def Obligations.SkipsMoveByFourOrTwo : Prop :=
  ∀ (s : State) (x y : Reg) (nn : BitVec 8) (n : BitVec 4),
    (∃ t, exec (.seqk x nn) s = .next t ∧ RegisterFrame s t [] ∧
      t.pc = if (s.reg x).toNat = nn.toNat then s.pc + 4 else s.pc + 2) ∧
    (∃ t, exec (.snek x nn) s = .next t ∧ RegisterFrame s t [] ∧
      t.pc = if (s.reg x).toNat ≠ nn.toNat then s.pc + 4 else s.pc + 2) ∧
    (∃ t, exec (.seq x y n) s = .next t ∧ RegisterFrame s t [] ∧
      t.pc = if (s.reg x).toNat = (s.reg y).toNat then s.pc + 4 else s.pc + 2) ∧
    (∃ t, exec (.sne x y n) s = .next t ∧ RegisterFrame s t [] ∧
      t.pc = if (s.reg x).toNat ≠ (s.reg y).toNat then s.pc + 4 else s.pc + 2)

/-! ### Registers and the ALU -/

/-- R140 and R141: LDK writes `NN`; ADDK adds it modulo 2^64 and sets no flag. -/
def Obligations.ConstantsLoadAndAdd : Prop :=
  ∀ (s : State) (x : Reg) (nn : BitVec 8),
    (∃ t, exec (.ldk x nn) s = .next t ∧ (t.reg x).toNat = nn.toNat ∧ t.pc = s.pc + 2 ∧ RegisterFrame s t [x]) ∧
    (∃ t, exec (.addk x nn) s = .next t ∧ (t.reg x).toNat = ((s.reg x).toNat + nn.toNat) % 2 ^ 64 ∧
      t.pc = s.pc + 2 ∧ RegisterFrame s t [x])

/-- R142 to R145: MOV copies; OR, AND and XOR work bit by bit. -/
def Obligations.MoveAndLogicBitByBit : Prop :=
  ∀ (s : State) (x y : Reg),
    (∃ t, exec (.mov x y) s = .next t ∧ t.reg x = s.reg y ∧ t.pc = s.pc + 2 ∧ RegisterFrame s t [x]) ∧
    (∃ t, exec (.or x y) s = .next t ∧ t.pc = s.pc + 2 ∧ RegisterFrame s t [x] ∧
      ∀ k, (t.reg x).getLsbD k = ((s.reg x).getLsbD k || (s.reg y).getLsbD k)) ∧
    (∃ t, exec (.and x y) s = .next t ∧ t.pc = s.pc + 2 ∧ RegisterFrame s t [x] ∧
      ∀ k, (t.reg x).getLsbD k = ((s.reg x).getLsbD k && (s.reg y).getLsbD k)) ∧
    (∃ t, exec (.xor x y) s = .next t ∧ t.pc = s.pc + 2 ∧ RegisterFrame s t [x] ∧
      ∀ k, (t.reg x).getLsbD k = ((s.reg x).getLsbD k != (s.reg y).getLsbD k))

/-- R146: the sum modulo 2^64, and VF the carry out unless the sum overwrites it. -/
def Obligations.AddSetsTheCarry : Prop :=
  ∀ (s : State) (x y : Reg), ∃ t, exec (.add x y) s = .next t ∧ t.pc = s.pc + 2 ∧ RegisterFrame s t [x, Reg.vf] ∧
    (t.reg x).toNat = ((s.reg x).toNat + (s.reg y).toNat) % 2 ^ 64 ∧
    (x ≠ Reg.vf → (t.reg Reg.vf).toNat = if 2 ^ 64 ≤ (s.reg x).toNat + (s.reg y).toNat then 1 else 0)

/-- R147: the flag is 1 exactly when there is no borrow; the subtraction reads VF as just written where an operand is
VF (R12, D10; log 13). -/
def Obligations.SubSetsNoBorrow : Prop :=
  ∀ (s : State) (x y : Reg), ∃ t, exec (.sub x y) s = .next t ∧ t.pc = s.pc + 2 ∧ RegisterFrame s t [x, Reg.vf] ∧
    ∀ c : Nat, c = (if (s.reg y).toNat ≤ (s.reg x).toNat then 1 else 0) →
      (x ≠ Reg.vf → (t.reg Reg.vf).toNat = c) ∧
      ∀ a b : Nat, a = (if x = Reg.vf then c else (s.reg x).toNat) → b = (if y = Reg.vf then c else (s.reg y).toNat) →
        (t.reg x).toNat = (a + 2 ^ 64 - b) % 2 ^ 64

/-- R149: as R147 with the operands swapped; the destination is `y`. -/
def Obligations.RsubWritesTheSecondOperand : Prop :=
  ∀ (s : State) (x y : Reg), ∃ t, exec (.rsub x y) s = .next t ∧ t.pc = s.pc + 2 ∧ RegisterFrame s t [y, Reg.vf] ∧
    ∀ c : Nat, c = (if (s.reg x).toNat ≤ (s.reg y).toNat then 1 else 0) →
      (y ≠ Reg.vf → (t.reg Reg.vf).toNat = c) ∧
      ∀ a b : Nat, a = (if y = Reg.vf then c else (s.reg y).toNat) → b = (if x = Reg.vf then c else (s.reg x).toNat) →
        (t.reg y).toNat = (a + 2 ^ 64 - b) % 2 ^ 64

/-- R148: amount 0 only clears VF; else VF is the last bit out and zeros enter at the top. -/
def Obligations.ShrDividesAndReportsTheBit : Prop :=
  ∀ (s : State) (x : Reg) (a : BitVec 4), ∃ t, exec (.shr x a) s = .next t ∧ t.pc = s.pc + 2 ∧
    RegisterFrame s t [x, Reg.vf] ∧
    (a.toNat = 0 → t.reg Reg.vf = 0#64 ∧ (x ≠ Reg.vf → t.reg x = s.reg x)) ∧
    (a.toNat ≠ 0 → x ≠ Reg.vf → (t.reg x).toNat = (s.reg x).toNat / 2 ^ a.toNat ∧
      (t.reg Reg.vf).toNat = (s.reg x).toNat / 2 ^ (a.toNat - 1) % 2) ∧
    (a.toNat ≠ 0 → x = Reg.vf → t.reg Reg.vf = 0#64)

/-- R150: the mirror of R148 at the other end. -/
def Obligations.ShlMultipliesAndReportsTheBit : Prop :=
  ∀ (s : State) (x : Reg) (a : BitVec 4), ∃ t, exec (.shl x a) s = .next t ∧ t.pc = s.pc + 2 ∧
    RegisterFrame s t [x, Reg.vf] ∧
    (a.toNat = 0 → t.reg Reg.vf = 0#64 ∧ (x ≠ Reg.vf → t.reg x = s.reg x)) ∧
    (a.toNat ≠ 0 → x ≠ Reg.vf → (t.reg x).toNat = (s.reg x).toNat * 2 ^ a.toNat % 2 ^ 64 ∧
      (t.reg Reg.vf).toNat = (s.reg x).toNat / 2 ^ (64 - a.toNat) % 2) ∧
    (a.toNat ≠ 0 → x = Reg.vf →
      (t.reg Reg.vf).toNat = (s.reg x).toNat / 2 ^ (64 - a.toNat) % 2 * 2 ^ a.toNat)

/-- R154: the table of outcomes when register 0xF is an operand of ADD, SUB, RSUB, SHR or SHL. -/
def Obligations.FlagRegisterAsOperand : Prop :=
  ∀ (s : State) (q : Reg) (a : BitVec 4) (f v : Word), f = s.reg Reg.vf → v = s.reg q → q ≠ Reg.vf →
    (∃ t, exec (.add Reg.vf q) s = .next t ∧ t.reg Reg.vf = f + v) ∧
    (∃ t, exec (.add q Reg.vf) s = .next t ∧ t.reg q = v + f ∧
      t.reg Reg.vf = if 2 ^ 64 ≤ v.toNat + f.toNat then 1#64 else 0#64) ∧
    (∃ t, exec (.add Reg.vf Reg.vf) s = .next t ∧ t.reg Reg.vf = f + f) ∧
    (∃ t, exec (.sub Reg.vf q) s = .next t ∧ t.reg Reg.vf = (if v ≤ f then 1#64 else 0#64) - v) ∧
    (∃ t, exec (.sub q Reg.vf) s = .next t ∧ t.reg q = v - (if f ≤ v then 1#64 else 0#64) ∧
      t.reg Reg.vf = if f ≤ v then 1#64 else 0#64) ∧
    (∃ t, exec (.sub Reg.vf Reg.vf) s = .next t ∧ t.reg Reg.vf = 0#64) ∧
    (∃ t, exec (.rsub Reg.vf q) s = .next t ∧ t.reg q = v - (if f ≤ v then 1#64 else 0#64) ∧
      t.reg Reg.vf = if f ≤ v then 1#64 else 0#64) ∧
    (∃ t, exec (.rsub q Reg.vf) s = .next t ∧ t.reg Reg.vf = (if v ≤ f then 1#64 else 0#64) - v) ∧
    (∃ t, exec (.rsub Reg.vf Reg.vf) s = .next t ∧ t.reg Reg.vf = 0#64) ∧
    (∃ t, exec (.shr Reg.vf a) s = .next t ∧ t.reg Reg.vf = 0#64) ∧
    (∃ t, exec (.shl Reg.vf a) s = .next t ∧
      (a.toNat = 0 → t.reg Reg.vf = 0#64) ∧
      (a.toNat ≠ 0 → (t.reg Reg.vf).toNat = (f.getLsbD (64 - a.toNat)).toNat * 2 ^ a.toNat))

/-- R151: exactly one draw; the register gets the drawn byte and `NN`. Holds for every law of the draws (log 6). -/
def Obligations.RandMasksOneDraw : Prop :=
  ∀ (s : State) (x : Reg) (nn : BitVec 8), ∃ t, exec (.rand x nn) s = .next t ∧ t.pc = s.pc + 2 ∧
    (t.reg x).toNat = (Config.randomByte s.draws &&& nn).toNat ∧ (t.reg x).toNat ≤ 0xFF ∧
    (∀ k, nn.getLsbD k = false → (t.reg x).getLsbD k = false) ∧
    t.draws = s.draws + 1 ∧ RegsKept s t [x] ∧ ControlKept s t ∧ MemKept s t ∧ t.consoleIn = s.consoleIn ∧
    t.transcript = s.transcript

/-! ### Index pointer and memory blocks -/

/-- R170 and R171: SETI sets `I` to `NNN`; ADDI adds the register exactly, without wrap or flag. -/
def Obligations.IndexIsSetAndAddedExactly : Prop :=
  ∀ (s : State) (x : Reg) (nnn : BitVec 12),
    (∃ t, exec (.seti nnn) s = .next t ∧ t.index = nnn.toNat ∧ t.pc = s.pc + 2 ∧ RegsKept s t [] ∧
      t.stack = s.stack ∧ t.engine = s.engine ∧ MemKept s t ∧ OutsideKept s t) ∧
    (∃ t, exec (.addi x) s = .next t ∧ t.index = s.index + (s.reg x).toNat ∧ t.pc = s.pc + 2 ∧ RegsKept s t [] ∧
      t.stack = s.stack ∧ t.engine = s.engine ∧ MemKept s t ∧ OutsideKept s t)

/-- R172: SPILL stores `x[0] .. x[X]` at `I`, most significant byte first, and nothing else; `I` is unchanged; a block
that reaches 4096 is refused whole. The bytes stored to are the `blockBytes x` bytes from `s.index`. That a byte stored is the byte read needs memory in its canonical form (the invariant). -/
def Obligations.SpillStoresTheBlock : Prop :=
  ∀ (s : State) (x : Reg),
    (s.index + blockBytes x ≤ 4096 → ∃ t, exec (.spill x) s = .next t ∧ t.pc = s.pc + 2 ∧
      RegsKept s t [] ∧ ControlKept s t ∧ OutsideKept s t ∧ MemKeptOutside s t s.index (blockBytes x) ∧
      (s.mem.wf = true → ∀ r : Reg, r ≤ x → ∀ j, j < 8 →
        t.mem.read (s.index + 8 * r.toNat + j) = (s.reg r).extractLsb' (8 * (7 - j)) 8)) ∧
    (4096 < s.index + blockBytes x → exec (.spill x) s = .fault (.addressFault s.index (blockBytes x)))

/-- R173: LOADB loads `x[0] .. x[X]` from `I`, most significant byte first; the registers above `X` and `I` are
unchanged; a block that reaches 4096 is refused whole. -/
def Obligations.LoadbLoadsTheBlock : Prop :=
  ∀ (s : State) (x : Reg),
    (s.index + blockBytes x ≤ 4096 → ∃ t, exec (.loadb x) s = .next t ∧ t.pc = s.pc + 2 ∧
      ControlKept s t ∧ MemKept s t ∧ OutsideKept s t ∧ (∀ r : Reg, x < r → t.reg r = s.reg r) ∧
      ∀ r : Reg, r ≤ x → ∀ j, j < 8 →
        (t.reg r).extractLsb' (8 * (7 - j)) 8 = s.mem.read (s.index + 8 * r.toNat + j)) ∧
    (4096 < s.index + blockBytes x → exec (.loadb x) s = .fault (.addressFault s.index (blockBytes x)))

/-- R202: a block that reaches 4096 is refused whole, for SPILL and LOADB alike. -/
def Obligations.BlockPastTheEndFaults : Prop :=
  ∀ (s : State) (x : Reg), 4096 < s.index + 8 * (x.toNat + 1) →
    exec (.spill x) s = .fault (.addressFault s.index (8 * (x.toNat + 1))) ∧
    exec (.loadb x) s = .fault (.addressFault s.index (8 * (x.toNat + 1))) ∧
    s.afterFault (.addressFault s.index (8 * (x.toNat + 1))) = s

/-- R174: SPILL then LOADB with the same `I` and the block unwritten in between restores the registers. -/
def Obligations.SpillThenLoadbRestores : Prop :=
  ∀ (s t u : State) (x : Reg), s.mem.wf = true → exec (.spill x) s = .next t → u.index = t.index →
    (∀ a : Nat, s.index ≤ a → a < s.index + blockBytes x → u.mem.read a = t.mem.read a) →
    ∃ v, exec (.loadb x) u = .next v ∧ (∀ r : Reg, r ≤ x → v.reg r = s.reg r) ∧ t.index = s.index ∧ v.index = s.index

/-- A SPILL is seen by the very next fetch, byte for byte, at any alignment (R53, R64). -/
def Obligations.SpillIsSeenByTheNextFetch : Prop :=
  ∀ (s : State) (x : Reg) (o : Nat), s.mem.wf = true → s.index + blockBytes x ≤ 4096 → s.pc + 2 = s.index + o →
    o + 2 ≤ blockBytes x →
    ∃ t, exec (.spill x) s = .next t ∧ t.fetchBytes = [blockByte s o, blockByte s (o + 1)] ∧
      t.word = blockByte s o ++ blockByte s (o + 1)

/-! ### Console -/

/-- R185, R187, R188: OUTX, OUTB and OUTO hand the numeral of the register to the console, exactly once, and change
nothing else. The string denotes the unsigned register value in base 16, 2 or 8 (R193). Digit case, marker and padding
are a free value (log 7): the statement holds for every one. -/
def Obligations.OutputHandsOverTheNumeral : Prop :=
  ∀ (s : State) (x : Reg),
    (∃ t, exec (.outx x) s = .next t ∧ OutputFrame s t (formatNumeral .hex (s.reg x)) ∧
      Denotes .hex (formatNumeral .hex (s.reg x)) (s.reg x).toNat) ∧
    (∃ t, exec (.outb x) s = .next t ∧ OutputFrame s t (formatNumeral .bin (s.reg x)) ∧
      Denotes .bin (formatNumeral .bin (s.reg x)) (s.reg x).toNat) ∧
    (∃ t, exec (.outo x) s = .next t ∧ OutputFrame s t (formatNumeral .oct (s.reg x)) ∧
      Denotes .oct (formatNumeral .oct (s.reg x)) (s.reg x).toNat)

/-- R186 with R193's base 10 (D13): OUTD hands over the shortest decimal numeral of the unsigned value: digits only, no
leading zero, "0" for zero. -/
def Obligations.OutdPrintsTheShortestDecimal : Prop :=
  ∀ (s : State) (x : Reg), ∃ t l, exec (.outd x) s = .next t ∧ OutputFrame s t l ∧
    numeralValue .dec l = (s.reg x).toNat ∧ l ≠ [] ∧ (∀ c ∈ l, 48 ≤ c.toNat ∧ c.toNat ≤ 57) ∧
    (l.head? = some '0' → l = ['0'])

/-- R189 to R192: an input instruction stores the value of the string it reads, or fails with InputParseFailure (D15) and
changes nothing but that the string is consumed. That a failed string is consumed is R189 for INX and DEDUCED for IND,
INB and INO (log 2); the transcript is the model's form of the transaction (log 5). -/
def Obligations.InputStoresTheParsedValue : Prop :=
  ∀ (s : State) (x : Reg) (l : Line) (rest : List Line), s.consoleIn = l :: rest →
    ((∀ v, inputValue .hex l = some v → ∃ t, exec (.inx x) s = .next t ∧ t.reg x = v ∧ InputFrame .hex x s t l rest) ∧
      (inputValue .hex l = none → exec (.inx x) s = .fault (.inputParseFailure .hex l))) ∧
    ((∀ v, inputValue .dec l = some v → ∃ t, exec (.ind x) s = .next t ∧ t.reg x = v ∧ InputFrame .dec x s t l rest) ∧
      (inputValue .dec l = none → exec (.ind x) s = .fault (.inputParseFailure .dec l))) ∧
    ((∀ v, inputValue .bin l = some v → ∃ t, exec (.inb x) s = .next t ∧ t.reg x = v ∧ InputFrame .bin x s t l rest) ∧
      (inputValue .bin l = none → exec (.inb x) s = .fault (.inputParseFailure .bin l))) ∧
    ((∀ v, inputValue .oct l = some v → ∃ t, exec (.ino x) s = .next t ∧ t.reg x = v ∧ InputFrame .oct x s t l rest) ∧
      (inputValue .oct l = none → exec (.ino x) s = .fault (.inputParseFailure .oct l))) ∧
    ∀ b, SameArchitecture s (s.afterFault (.inputParseFailure b l)) ∧
      (s.afterFault (.inputParseFailure b l)).consoleIn = rest

/-- An input instruction whose console has not answered waits: nothing changes. That `step` answers the same state is
the model's form of the wait (log 4). -/
def Obligations.InputWaitsForAnAnswer : Prop :=
  ∀ (s : State) (x : Reg), s.consoleIn = [] →
    exec (.inx x) s = .next s ∧ exec (.ind x) s = .next s ∧ exec (.inb x) s = .next s ∧ exec (.ino x) s = .next s ∧
    (s.fetches → (decode s.word = .instr (.inx x) ∨ decode s.word = .instr (.ind x) ∨ decode s.word = .instr (.inb x) ∨
      decode s.word = .instr (.ino x)) → ∀ n, runFor (n + 1) s = (.blocked, s))

/-- R194's fixed part: a string of digits all valid in the base is their value, 2^64 and more is a failure. -/
def Obligations.PlainNumeralsParse : Prop :=
  ∀ (b : Base) (l : Line), IsNumeral b l →
    parseNumeral b l = some (numeralValue b l) ∧
      (numeralValue b l < 2 ^ 64 → ∃ v, inputValue b l = some v ∧ v.toNat = numeralValue b l) ∧
      (2 ^ 64 ≤ numeralValue b l → inputValue b l = none)

/-- A decimal digit foreign to the base is a failure (R191, R192). That it is one whatever else the string holds is the
model's reading of these rules (DEDUCED, log 8). -/
def Obligations.ForeignDigitFails : Prop :=
  ∀ (b : Base) (l : Line), (∃ c ∈ l, 48 ≤ c.toNat ∧ c.toNat ≤ 57 ∧ b.radix ≤ c.toNat - 48) → inputValue b l = none

/-- What OUTD prints, IND reads back. -/
def Obligations.DecimalOutputReadsBack : Prop :=
  ∀ v : Word, inputValue .dec (formatNumeral .dec v) = some v

/-! ### The budget -/

/-- R106: a completed cycle takes exactly one from the budget, and a budget of 0 runs none. A cycle that waits for
console input has not completed; that it is told apart by `waiting` is the model's form (log 4). -/
def Obligations.EveryCompletedCycleCountsOnce : Prop :=
  ∀ s : State, s.engine = .running → runFor 0 s = (.budgetExhausted, s) ∧
    ∀ t : State, s.waiting = false → step s = .next t → ∀ n, runFor (n + 1) s = runFor n t
end

