-- ==== Sys2Proof/Laws/Decode.lean ====
section
/-! SUPPORT. The fields of a packed word, a word from its fields, and the decoder on each family. -/

namespace Sys2Proof

/-! ### Fields and packed words as numbers -/

theorem fieldT_toNat (w : Code) : (fieldT w).toNat = w.toNat / 4096 := by
  have := w.isLt
  simp [fieldT, BitVec.extractLsb'_toNat, Nat.shiftRight_eq_div_pow]
  omega

theorem fieldX_toNat (w : Code) : (fieldX w).toNat = w.toNat / 256 % 16 := by
  simp [fieldX, BitVec.extractLsb'_toNat, Nat.shiftRight_eq_div_pow]

theorem fieldY_toNat (w : Code) : (fieldY w).toNat = w.toNat / 16 % 16 := by
  simp [fieldY, BitVec.extractLsb'_toNat, Nat.shiftRight_eq_div_pow]

theorem fieldN_toNat (w : Code) : (fieldN w).toNat = w.toNat % 16 := by
  simp [fieldN, BitVec.extractLsb'_toNat]

theorem fieldNN_toNat (w : Code) : (fieldNN w).toNat = w.toNat % 256 := by
  simp [fieldNN, BitVec.extractLsb'_toNat]

theorem fieldNNN_toNat (w : Code) : (fieldNNN w).toNat = w.toNat % 4096 := by
  simp [fieldNNN, BitVec.extractLsb'_toNat]

/-- Two words side by side, as a number. -/
theorem append_toNat {m n : Nat} (a : BitVec m) (b : BitVec n) : (a ++ b).toNat = a.toNat * 2 ^ n + b.toNat := by
  rw [BitVec.toNat_append, ← Nat.shiftLeft_add_eq_or_of_lt b.isLt, Nat.shiftLeft_eq]

theorem packA_toNat (t : BitVec 4) (nnn : BitVec 12) : (packA t nnn).toNat = t.toNat * 4096 + nnn.toNat :=
  append_toNat t nnn

theorem packK_toNat (t : BitVec 4) (x : Reg) (nn : BitVec 8) :
    (packK t x nn).toNat = t.toNat * 4096 + x.toNat * 256 + nn.toNat := by
  have h : (packK t x nn).toNat = (t ++ x).toNat * 2 ^ 8 + nn.toNat := append_toNat (t ++ x) nn
  rw [h, append_toNat]
  ring

theorem packR_toNat (t : BitVec 4) (x y : Reg) (n : BitVec 4) :
    (packR t x y n).toNat = t.toNat * 4096 + x.toNat * 256 + y.toNat * 16 + n.toNat := by
  have h : (packR t x y n).toNat = (t ++ x).toNat * 2 ^ 8 + (y ++ n).toNat := append_toNat (t ++ x) (y ++ n)
  rw [h, append_toNat, append_toNat]
  ring

/-! ### The fields of a packed word -/

@[simp] theorem fieldT_packA (t : BitVec 4) (nnn : BitVec 12) : fieldT (packA t nnn) = t := by
  apply BitVec.eq_of_toNat_eq; rw [fieldT_toNat, packA_toNat]; omega

@[simp] theorem fieldNNN_packA (t : BitVec 4) (nnn : BitVec 12) : fieldNNN (packA t nnn) = nnn := by
  apply BitVec.eq_of_toNat_eq; rw [fieldNNN_toNat, packA_toNat]; omega

@[simp] theorem fieldT_packK (t : BitVec 4) (x : Reg) (nn : BitVec 8) : fieldT (packK t x nn) = t := by
  apply BitVec.eq_of_toNat_eq; rw [fieldT_toNat, packK_toNat]; omega

@[simp] theorem fieldX_packK (t : BitVec 4) (x : Reg) (nn : BitVec 8) : fieldX (packK t x nn) = x := by
  apply BitVec.eq_of_toNat_eq; rw [fieldX_toNat, packK_toNat]; omega

@[simp] theorem fieldNN_packK (t : BitVec 4) (x : Reg) (nn : BitVec 8) : fieldNN (packK t x nn) = nn := by
  apply BitVec.eq_of_toNat_eq; rw [fieldNN_toNat, packK_toNat]; omega

@[simp] theorem fieldT_packR (t : BitVec 4) (x y : Reg) (n : BitVec 4) : fieldT (packR t x y n) = t := by
  apply BitVec.eq_of_toNat_eq; rw [fieldT_toNat, packR_toNat]; omega

@[simp] theorem fieldX_packR (t : BitVec 4) (x y : Reg) (n : BitVec 4) : fieldX (packR t x y n) = x := by
  apply BitVec.eq_of_toNat_eq; rw [fieldX_toNat, packR_toNat]; omega

@[simp] theorem fieldY_packR (t : BitVec 4) (x y : Reg) (n : BitVec 4) : fieldY (packR t x y n) = y := by
  apply BitVec.eq_of_toNat_eq; rw [fieldY_toNat, packR_toNat]; omega

@[simp] theorem fieldN_packR (t : BitVec 4) (x y : Reg) (n : BitVec 4) : fieldN (packR t x y n) = n := by
  apply BitVec.eq_of_toNat_eq; rw [fieldN_toNat, packR_toNat]; omega

/-! ### A word from its fields -/

theorem packA_fields (w : Code) : packA (fieldT w) (fieldNNN w) = w := by
  apply BitVec.eq_of_toNat_eq; rw [packA_toNat, fieldT_toNat, fieldNNN_toNat]; omega

theorem packK_fields (w : Code) : packK (fieldT w) (fieldX w) (fieldNN w) = w := by
  apply BitVec.eq_of_toNat_eq; rw [packK_toNat, fieldT_toNat, fieldX_toNat, fieldNN_toNat]; omega

theorem packR_fields (w : Code) : packR (fieldT w) (fieldX w) (fieldY w) (fieldN w) = w := by
  apply BitVec.eq_of_toNat_eq; rw [packR_toNat, fieldT_toNat, fieldX_toNat, fieldY_toNat, fieldN_toNat]; omega

/-! ### Words in memory -/

/-- The two bytes of a word put together again. -/
theorem decodeBytes_codeBytes (w : Code) (rest : List Byte) : decodeBytes (codeBytes w ++ rest) = decode w := by
  have h : (w.extractLsb' 8 8 ++ w.extractLsb' 0 8 : BitVec (8 + 8)) = w := by
    apply BitVec.eq_of_toNat_eq
    rw [append_toNat]
    have := w.isLt
    simp [BitVec.extractLsb'_toNat, Nat.shiftRight_eq_div_pow]
    omega
  show decode (w.extractLsb' 8 8 ++ w.extractLsb' 0 8 : BitVec (8 + 8)) = decode w
  rw [h]

/-- The decoder answers a truncation only on fewer than two bytes. -/
theorem decodeBytes_pair (hb lb : Byte) (rest : List Byte) : decodeBytes (hb :: lb :: rest) = decode (hb ++ lb) := rfl

/-! ### The masks of the opcode table, by fields -/

theorem packR_and (t x y n t' x' y' n' : BitVec 4) :
    packR t x y n &&& packR t' x' y' n' = packR (t &&& t') (x &&& x') (y &&& y') (n &&& n') := by
  show ((t ++ x) ++ (y ++ n) : BitVec (4 + 4 + (4 + 4))) &&& ((t' ++ x') ++ (y' ++ n')) = _
  rw [BitVec.and_append, BitVec.and_append, BitVec.and_append]
  rfl

theorem packR_inj (t x y n t' x' y' n' : BitVec 4) :
    packR t x y n = packR t' x' y' n' ↔ t = t' ∧ x = x' ∧ y = y' ∧ n = n' := by
  constructor
  · intro h
    have h1 := congrArg fieldT h
    have h2 := congrArg fieldX h
    have h3 := congrArg fieldY h
    have h4 := congrArg fieldN h
    simp only [fieldT_packR, fieldX_packR, fieldY_packR, fieldN_packR] at h1 h2 h3 h4
    exact ⟨h1, h2, h3, h4⟩
  · rintro ⟨rfl, rfl, rfl, rfl⟩
    rfl

theorem ones_and (t : BitVec 4) : t &&& 0xF#4 = t := by
  revert t; decide

/-- A row's test, nibble by nibble. -/
theorem matches_iff (m : String) (w : Code) (p3 p2 p1 p0 m3 m2 m1 m0 : BitVec 4) :
    OpcodeRow.matches ⟨m, packR p3 p2 p1 p0, packR m3 m2 m1 m0⟩ w = true ↔
      fieldT w &&& m3 = p3 ∧ fieldX w &&& m2 = p2 ∧ fieldY w &&& m1 = p1 ∧ fieldN w &&& m0 = p0 := by
  have h : w &&& packR m3 m2 m1 m0 =
      packR (fieldT w &&& m3) (fieldX w &&& m2) (fieldY w &&& m1) (fieldN w &&& m0) := by
    rw [← packR_and, packR_fields]
  simp only [OpcodeRow.matches, beq_iff_eq, h, packR_inj]

/-- The low byte as its two nibbles. -/
theorem fieldNN_eq_iff (w : Code) (nn : BitVec 8) :
    fieldNN w = nn ↔ fieldY w = nn.extractLsb' 4 4 ∧ fieldN w = nn.extractLsb' 0 4 := by
  have hY := fieldY_toNat w
  have hN := fieldN_toNat w
  have hB := fieldNN_toNat w
  have e1 : (nn.extractLsb' 4 4).toNat = nn.toNat / 16 := by
    have := nn.isLt
    simp [BitVec.extractLsb'_toNat, Nat.shiftRight_eq_div_pow]
    omega
  have e0 : (nn.extractLsb' 0 4).toNat = nn.toNat % 16 := by
    simp [BitVec.extractLsb'_toNat]
  constructor
  · intro h
    have hn := congrArg BitVec.toNat h
    constructor
    · apply BitVec.eq_of_toNat_eq; omega
    · apply BitVec.eq_of_toNat_eq; omega
  · rintro ⟨h1, h0⟩
    have hn1 := congrArg BitVec.toNat h1
    have hn0 := congrArg BitVec.toNat h0
    apply BitVec.eq_of_toNat_eq
    omega

end Sys2Proof
end

