-- ==== Sys2Proof/Laws/State.lean ====
section
/-! SUPPORT. One lemma per field per update of State, and the register file's read-after-write laws. -/

namespace Sys2Proof.Machine

/-! ### setReg -/

@[simp] theorem State.setReg_pc (s : State) (r : Reg) (v : Word) : (s.setReg r v).pc = s.pc := rfl
@[simp] theorem State.setReg_index (s : State) (r : Reg) (v : Word) : (s.setReg r v).index = s.index := rfl
@[simp] theorem State.setReg_stack (s : State) (r : Reg) (v : Word) : (s.setReg r v).stack = s.stack := rfl
@[simp] theorem State.setReg_engine (s : State) (r : Reg) (v : Word) : (s.setReg r v).engine = s.engine := rfl
@[simp] theorem State.setReg_mem (s : State) (r : Reg) (v : Word) : (s.setReg r v).mem = s.mem := rfl
@[simp] theorem State.setReg_consoleIn (s : State) (r : Reg) (v : Word) : (s.setReg r v).consoleIn = s.consoleIn := rfl
@[simp] theorem State.setReg_transcript (s : State) (r : Reg) (v : Word) : (s.setReg r v).transcript = s.transcript := rfl
@[simp] theorem State.setReg_draws (s : State) (r : Reg) (v : Word) : (s.setReg r v).draws = s.draws := rfl

/-! ### setPc -/

@[simp] theorem State.setPc_x (s : State) (n : Nat) : (s.setPc n).x = s.x := rfl
@[simp] theorem State.setPc_pc (s : State) (n : Nat) : (s.setPc n).pc = n := rfl
@[simp] theorem State.setPc_index (s : State) (n : Nat) : (s.setPc n).index = s.index := rfl
@[simp] theorem State.setPc_stack (s : State) (n : Nat) : (s.setPc n).stack = s.stack := rfl
@[simp] theorem State.setPc_engine (s : State) (n : Nat) : (s.setPc n).engine = s.engine := rfl
@[simp] theorem State.setPc_mem (s : State) (n : Nat) : (s.setPc n).mem = s.mem := rfl
@[simp] theorem State.setPc_consoleIn (s : State) (n : Nat) : (s.setPc n).consoleIn = s.consoleIn := rfl
@[simp] theorem State.setPc_transcript (s : State) (n : Nat) : (s.setPc n).transcript = s.transcript := rfl
@[simp] theorem State.setPc_draws (s : State) (n : Nat) : (s.setPc n).draws = s.draws := rfl
@[simp] theorem State.setPc_reg (s : State) (n : Nat) (q : Reg) : (s.setPc n).reg q = s.reg q := rfl

/-! ### setIndex -/

@[simp] theorem State.setIndex_x (s : State) (n : Nat) : (s.setIndex n).x = s.x := rfl
@[simp] theorem State.setIndex_pc (s : State) (n : Nat) : (s.setIndex n).pc = s.pc := rfl
@[simp] theorem State.setIndex_index (s : State) (n : Nat) : (s.setIndex n).index = n := rfl
@[simp] theorem State.setIndex_stack (s : State) (n : Nat) : (s.setIndex n).stack = s.stack := rfl
@[simp] theorem State.setIndex_engine (s : State) (n : Nat) : (s.setIndex n).engine = s.engine := rfl
@[simp] theorem State.setIndex_mem (s : State) (n : Nat) : (s.setIndex n).mem = s.mem := rfl
@[simp] theorem State.setIndex_consoleIn (s : State) (n : Nat) : (s.setIndex n).consoleIn = s.consoleIn := rfl
@[simp] theorem State.setIndex_transcript (s : State) (n : Nat) : (s.setIndex n).transcript = s.transcript := rfl
@[simp] theorem State.setIndex_draws (s : State) (n : Nat) : (s.setIndex n).draws = s.draws := rfl
@[simp] theorem State.setIndex_reg (s : State) (n : Nat) (q : Reg) : (s.setIndex n).reg q = s.reg q := rfl

/-! ### push -/

@[simp] theorem State.push_x (s : State) (n : Nat) : (s.push n).x = s.x := rfl
@[simp] theorem State.push_pc (s : State) (n : Nat) : (s.push n).pc = s.pc := rfl
@[simp] theorem State.push_index (s : State) (n : Nat) : (s.push n).index = s.index := rfl
@[simp] theorem State.push_stack (s : State) (n : Nat) : (s.push n).stack = n :: s.stack := rfl
@[simp] theorem State.push_engine (s : State) (n : Nat) : (s.push n).engine = s.engine := rfl
@[simp] theorem State.push_mem (s : State) (n : Nat) : (s.push n).mem = s.mem := rfl
@[simp] theorem State.push_consoleIn (s : State) (n : Nat) : (s.push n).consoleIn = s.consoleIn := rfl
@[simp] theorem State.push_transcript (s : State) (n : Nat) : (s.push n).transcript = s.transcript := rfl
@[simp] theorem State.push_draws (s : State) (n : Nat) : (s.push n).draws = s.draws := rfl
@[simp] theorem State.push_reg (s : State) (n : Nat) (q : Reg) : (s.push n).reg q = s.reg q := rfl

/-! ### dropTop -/

@[simp] theorem State.dropTop_x (s : State) : (s.dropTop).x = s.x := rfl
@[simp] theorem State.dropTop_pc (s : State) : (s.dropTop).pc = s.pc := rfl
@[simp] theorem State.dropTop_index (s : State) : (s.dropTop).index = s.index := rfl
@[simp] theorem State.dropTop_stack (s : State) : (s.dropTop).stack = s.stack.tail := rfl
@[simp] theorem State.dropTop_engine (s : State) : (s.dropTop).engine = s.engine := rfl
@[simp] theorem State.dropTop_mem (s : State) : (s.dropTop).mem = s.mem := rfl
@[simp] theorem State.dropTop_consoleIn (s : State) : (s.dropTop).consoleIn = s.consoleIn := rfl
@[simp] theorem State.dropTop_transcript (s : State) : (s.dropTop).transcript = s.transcript := rfl
@[simp] theorem State.dropTop_draws (s : State) : (s.dropTop).draws = s.draws := rfl
@[simp] theorem State.dropTop_reg (s : State) (q : Reg) : (s.dropTop).reg q = s.reg q := rfl

/-! ### halt -/

@[simp] theorem State.halt_x (s : State) : (s.halt).x = s.x := rfl
@[simp] theorem State.halt_pc (s : State) : (s.halt).pc = s.pc := rfl
@[simp] theorem State.halt_index (s : State) : (s.halt).index = s.index := rfl
@[simp] theorem State.halt_stack (s : State) : (s.halt).stack = s.stack := rfl
@[simp] theorem State.halt_engine (s : State) : (s.halt).engine = .halted := rfl
@[simp] theorem State.halt_mem (s : State) : (s.halt).mem = s.mem := rfl
@[simp] theorem State.halt_consoleIn (s : State) : (s.halt).consoleIn = s.consoleIn := rfl
@[simp] theorem State.halt_transcript (s : State) : (s.halt).transcript = s.transcript := rfl
@[simp] theorem State.halt_draws (s : State) : (s.halt).draws = s.draws := rfl
@[simp] theorem State.halt_reg (s : State) (q : Reg) : (s.halt).reg q = s.reg q := rfl

/-! ### setMem -/

@[simp] theorem State.setMem_x (s : State) (m : Memory) : (s.setMem m).x = s.x := rfl
@[simp] theorem State.setMem_pc (s : State) (m : Memory) : (s.setMem m).pc = s.pc := rfl
@[simp] theorem State.setMem_index (s : State) (m : Memory) : (s.setMem m).index = s.index := rfl
@[simp] theorem State.setMem_stack (s : State) (m : Memory) : (s.setMem m).stack = s.stack := rfl
@[simp] theorem State.setMem_engine (s : State) (m : Memory) : (s.setMem m).engine = s.engine := rfl
@[simp] theorem State.setMem_mem (s : State) (m : Memory) : (s.setMem m).mem = m := rfl
@[simp] theorem State.setMem_consoleIn (s : State) (m : Memory) : (s.setMem m).consoleIn = s.consoleIn := rfl
@[simp] theorem State.setMem_transcript (s : State) (m : Memory) : (s.setMem m).transcript = s.transcript := rfl
@[simp] theorem State.setMem_draws (s : State) (m : Memory) : (s.setMem m).draws = s.draws := rfl
@[simp] theorem State.setMem_reg (s : State) (m : Memory) (q : Reg) : (s.setMem m).reg q = s.reg q := rfl

/-! ### advance -/

@[simp] theorem State.advance_x (s : State) : (s.advance).x = s.x := rfl
@[simp] theorem State.advance_pc (s : State) : (s.advance).pc = s.pc + 2 := rfl
@[simp] theorem State.advance_index (s : State) : (s.advance).index = s.index := rfl
@[simp] theorem State.advance_stack (s : State) : (s.advance).stack = s.stack := rfl
@[simp] theorem State.advance_engine (s : State) : (s.advance).engine = s.engine := rfl
@[simp] theorem State.advance_mem (s : State) : (s.advance).mem = s.mem := rfl
@[simp] theorem State.advance_consoleIn (s : State) : (s.advance).consoleIn = s.consoleIn := rfl
@[simp] theorem State.advance_transcript (s : State) : (s.advance).transcript = s.transcript := rfl
@[simp] theorem State.advance_draws (s : State) : (s.advance).draws = s.draws := rfl
@[simp] theorem State.advance_reg (s : State) (q : Reg) : (s.advance).reg q = s.reg q := rfl

/-! ### writeLine -/

@[simp] theorem State.writeLine_x (s : State) (l : Line) : (s.writeLine l).x = s.x := rfl
@[simp] theorem State.writeLine_pc (s : State) (l : Line) : (s.writeLine l).pc = s.pc := rfl
@[simp] theorem State.writeLine_index (s : State) (l : Line) : (s.writeLine l).index = s.index := rfl
@[simp] theorem State.writeLine_stack (s : State) (l : Line) : (s.writeLine l).stack = s.stack := rfl
@[simp] theorem State.writeLine_engine (s : State) (l : Line) : (s.writeLine l).engine = s.engine := rfl
@[simp] theorem State.writeLine_mem (s : State) (l : Line) : (s.writeLine l).mem = s.mem := rfl
@[simp] theorem State.writeLine_consoleIn (s : State) (l : Line) : (s.writeLine l).consoleIn = s.consoleIn := rfl
@[simp] theorem State.writeLine_transcript (s : State) (l : Line) : (s.writeLine l).transcript = s.transcript ++ [.writeLine l] := rfl
@[simp] theorem State.writeLine_draws (s : State) (l : Line) : (s.writeLine l).draws = s.draws := rfl
@[simp] theorem State.writeLine_reg (s : State) (l : Line) (q : Reg) : (s.writeLine l).reg q = s.reg q := rfl

/-! ### drawn -/

@[simp] theorem State.drawn_x (s : State) : (s.drawn).x = s.x := rfl
@[simp] theorem State.drawn_pc (s : State) : (s.drawn).pc = s.pc := rfl
@[simp] theorem State.drawn_index (s : State) : (s.drawn).index = s.index := rfl
@[simp] theorem State.drawn_stack (s : State) : (s.drawn).stack = s.stack := rfl
@[simp] theorem State.drawn_engine (s : State) : (s.drawn).engine = s.engine := rfl
@[simp] theorem State.drawn_mem (s : State) : (s.drawn).mem = s.mem := rfl
@[simp] theorem State.drawn_consoleIn (s : State) : (s.drawn).consoleIn = s.consoleIn := rfl
@[simp] theorem State.drawn_transcript (s : State) : (s.drawn).transcript = s.transcript := rfl
@[simp] theorem State.drawn_draws (s : State) : (s.drawn).draws = s.draws + 1 := rfl
@[simp] theorem State.drawn_reg (s : State) (q : Reg) : (s.drawn).reg q = s.reg q := rfl

/-! ### setFlag -/

@[simp] theorem State.setFlag_pc (s : State) (b : Bool) : (s.setFlag b).pc = s.pc := rfl
@[simp] theorem State.setFlag_index (s : State) (b : Bool) : (s.setFlag b).index = s.index := rfl
@[simp] theorem State.setFlag_stack (s : State) (b : Bool) : (s.setFlag b).stack = s.stack := rfl
@[simp] theorem State.setFlag_engine (s : State) (b : Bool) : (s.setFlag b).engine = s.engine := rfl
@[simp] theorem State.setFlag_mem (s : State) (b : Bool) : (s.setFlag b).mem = s.mem := rfl
@[simp] theorem State.setFlag_consoleIn (s : State) (b : Bool) : (s.setFlag b).consoleIn = s.consoleIn := rfl
@[simp] theorem State.setFlag_transcript (s : State) (b : Bool) : (s.setFlag b).transcript = s.transcript := rfl
@[simp] theorem State.setFlag_draws (s : State) (b : Bool) : (s.setFlag b).draws = s.draws := rfl

/-! ### takeLine -/

theorem State.takeLine_nil (s : State) (b : Base) (r : Reg) (h : s.consoleIn = []) : s.takeLine b r = s := by
  simp [State.takeLine, h]

theorem State.takeLine_cons (s : State) (b : Base) (r : Reg) (l : Line) (rest : List Line) (h : s.consoleIn = l :: rest) :
    s.takeLine b r = { s with consoleIn := rest, transcript := s.transcript ++ [.readLine (Config.prompt b r) l] } := by
  simp [State.takeLine, h]

@[simp] theorem State.takeLine_x (s : State) (b : Base) (r : Reg) : (s.takeLine b r).x = s.x := by
  unfold State.takeLine; split <;> rfl
@[simp] theorem State.takeLine_pc (s : State) (b : Base) (r : Reg) : (s.takeLine b r).pc = s.pc := by
  unfold State.takeLine; split <;> rfl
@[simp] theorem State.takeLine_index (s : State) (b : Base) (r : Reg) : (s.takeLine b r).index = s.index := by
  unfold State.takeLine; split <;> rfl
@[simp] theorem State.takeLine_stack (s : State) (b : Base) (r : Reg) : (s.takeLine b r).stack = s.stack := by
  unfold State.takeLine; split <;> rfl
@[simp] theorem State.takeLine_engine (s : State) (b : Base) (r : Reg) : (s.takeLine b r).engine = s.engine := by
  unfold State.takeLine; split <;> rfl
@[simp] theorem State.takeLine_mem (s : State) (b : Base) (r : Reg) : (s.takeLine b r).mem = s.mem := by
  unfold State.takeLine; split <;> rfl
@[simp] theorem State.takeLine_draws (s : State) (b : Base) (r : Reg) : (s.takeLine b r).draws = s.draws := by
  unfold State.takeLine; split <;> rfl

@[simp] theorem State.takeLine_reg (s : State) (b : Base) (r q : Reg) : (s.takeLine b r).reg q = s.reg q := by
  simp [State.reg]

@[simp] theorem State.takeLine_consoleIn (s : State) (b : Base) (r : Reg) :
    (s.takeLine b r).consoleIn = s.consoleIn.tail := by
  cases h : s.consoleIn <;> simp [State.takeLine, h]

/-! ### The register file -/

/-- Reading any register after writing one. -/
theorem State.reg_setReg (s : State) (r q : Reg) (v : Word) :
    (s.setReg r v).reg q = if q = r then v else s.reg q := by
  unfold State.reg State.setReg
  rw [Vector.getElem_set]
  by_cases h : q = r
  · subst h; simp
  · have : r.toNat ≠ q.toNat := fun e => h (BitVec.eq_of_toNat_eq e).symm
    simp [h, this]

@[simp] theorem State.reg_setReg_same (s : State) (r : Reg) (v : Word) : (s.setReg r v).reg r = v := by
  simp [State.reg_setReg]

theorem State.reg_setReg_other (s : State) {r q : Reg} (v : Word) (h : q ≠ r) : (s.setReg r v).reg q = s.reg q := by
  simp [State.reg_setReg, h]

/-- Reading any register after the flag was written. -/
theorem State.reg_setFlag (s : State) (b : Bool) (q : Reg) :
    (s.setFlag b).reg q = if q = Reg.vf then flagWord b else s.reg q :=
  State.reg_setReg s Reg.vf q _

@[simp] theorem State.reg_setFlag_vf (s : State) (b : Bool) : (s.setFlag b).reg Reg.vf = flagWord b := by
  simp [State.reg_setFlag]

/-- Two register files that read alike are equal. -/
theorem State.x_ext {s t : State} (h : ∀ r : Reg, t.reg r = s.reg r) : t.x = s.x := by
  apply Vector.ext
  intro i hi
  have e := h (BitVec.ofNat 4 i)
  have hi' : (BitVec.ofNat 4 i).toNat = i := by simp; omega
  simpa [State.reg, hi'] using e

/-- Two states that agree in every observation are equal. -/
theorem State.ext_of {s t : State} (hx : ∀ r : Reg, t.reg r = s.reg r) (hpc : t.pc = s.pc) (hi : t.index = s.index)
    (hs : t.stack = s.stack) (he : t.engine = s.engine) (hm : t.mem = s.mem) (hc : t.consoleIn = s.consoleIn)
    (ht : t.transcript = s.transcript) (hd : t.draws = s.draws) : t = s := by
  have hx' := State.x_ext hx
  cases s; cases t; simp_all

@[simp] theorem flagWord_true : flagWord true = 1#64 := rfl
@[simp] theorem flagWord_false : flagWord false = 0#64 := rfl

@[simp] theorem State.reset_reg (r : Reg) : State.reset.reg r = 0#64 := by
  simp [State.reg, State.reset]

end Sys2Proof.Machine
end

