-- ==== Sys2Proof/Laws/Memory.lean ====
section
/-! SUPPORT. Memory: read after write, the canonical form is kept, big-endian values, register blocks. -/

namespace Sys2Proof.Machine

@[simp] theorem Memory.read_nil (a : Nat) : Memory.read [] a = 0#8 := rfl

theorem Memory.read_cons (k : Nat) (v : Byte) (m : Memory) (a : Nat) :
    Memory.read ((k, v) :: m) a = if k = a then v else Memory.read m a := rfl

/-! ### The canonical form -/

theorem Memory.wfFrom_cons (lo k : Nat) (v : Byte) (m : Memory) :
    Memory.wfFrom lo ((k, v) :: m) = true ↔ lo ≤ k ∧ k < 4096 ∧ v ≠ 0#8 ∧ Memory.wfFrom (k + 1) m = true := by
  simp only [Memory.wfFrom, Bool.and_eq_true, decide_eq_true_eq, bne_iff_ne, and_assoc]
  rfl

theorem Memory.wfFrom_mono {lo lo' : Nat} {m : Memory} (h : Memory.wfFrom lo m = true) (hl : lo' ≤ lo) :
    Memory.wfFrom lo' m = true := by
  cases m with
  | nil => rfl
  | cons c m =>
    obtain ⟨k, v⟩ := c
    rw [Memory.wfFrom_cons] at h ⊢
    exact ⟨by omega, h.2⟩

/-- Below its first address a canonical memory reads 0. -/
theorem Memory.read_of_lt {lo a : Nat} {m : Memory} (h : Memory.wfFrom lo m = true) (ha : a < lo) : m.read a = 0#8 := by
  induction m generalizing lo with
  | nil => rfl
  | cons c m ih =>
    obtain ⟨k, v⟩ := c
    rw [Memory.wfFrom_cons] at h
    rw [Memory.read_cons, if_neg (by omega)]
    exact ih h.2.2.2 (by omega)

/-- A canonical memory reads 0 from 4096 up. -/
theorem Memory.read_of_ge {lo a : Nat} {m : Memory} (h : Memory.wfFrom lo m = true) (ha : 4096 ≤ a) : m.read a = 0#8 := by
  induction m generalizing lo with
  | nil => rfl
  | cons c m ih =>
    obtain ⟨k, v⟩ := c
    rw [Memory.wfFrom_cons] at h
    rw [Memory.read_cons, if_neg (by omega)]
    exact ih h.2.2.2

theorem Memory.wfFrom_write {lo a : Nat} {b : Byte} {m : Memory} (h : Memory.wfFrom lo m = true) (hl : lo ≤ a)
    (ha : a < 4096) : Memory.wfFrom lo (m.write a b) = true := by
  induction m generalizing lo with
  | nil =>
    unfold Memory.write
    split
    · rfl
    · rw [Memory.wfFrom_cons]; exact ⟨hl, ha, by assumption, rfl⟩
  | cons c m ih =>
    obtain ⟨k, v⟩ := c
    have h' := h
    rw [Memory.wfFrom_cons] at h
    obtain ⟨h1, h2, h3, h4⟩ := h
    unfold Memory.write
    split
    · split
      · exact h'
      · rw [Memory.wfFrom_cons, Memory.wfFrom_cons]
        exact ⟨hl, ha, by assumption, by omega, h2, h3, h4⟩
    · split
      · rename_i hak
        subst hak
        split
        · exact Memory.wfFrom_mono h4 (by omega)
        · rw [Memory.wfFrom_cons]; exact ⟨hl, ha, by assumption, h4⟩
      · rw [Memory.wfFrom_cons]; exact ⟨h1, h2, h3, ih h4 (by omega)⟩

/-- A write inside memory keeps the canonical form. -/
theorem Memory.wf_write {m : Memory} {a : Nat} (b : Byte) (h : m.wf = true) (ha : a < 4096) : (m.write a b).wf = true :=
  Memory.wfFrom_write h (Nat.zero_le a) ha

@[simp] theorem Memory.wf_nil : Memory.wf [] = true := rfl

/-- Two canonical memories that read alike are the same list. -/
theorem Memory.wfFrom_ext {lo : Nat} {m m' : Memory} (h : Memory.wfFrom lo m = true) (h' : Memory.wfFrom lo m' = true)
    (e : ∀ a, m.read a = m'.read a) : m = m' := by
  induction m generalizing lo m' with
  | nil =>
    cases m' with
    | nil => rfl
    | cons c m' =>
      obtain ⟨k, v⟩ := c
      rw [Memory.wfFrom_cons] at h'
      have := e k
      simp [Memory.read_cons] at this
      exact absurd this.symm h'.2.2.1
  | cons c m ih =>
    obtain ⟨k, v⟩ := c
    have hc := h
    rw [Memory.wfFrom_cons] at h
    cases m' with
    | nil =>
      have := e k
      simp [Memory.read_cons] at this
      exact absurd this h.2.2.1
    | cons c' m' =>
      obtain ⟨k', v'⟩ := c'
      have hc' := h'
      rw [Memory.wfFrom_cons] at h'
      have hk : k = k' := by
        rcases Nat.lt_trichotomy k k' with hlt | heq | hgt
        · have h0 : Memory.read ((k', v') :: m') k = 0#8 := by
            rw [Memory.read_cons, if_neg (by omega)]
            exact Memory.read_of_lt h'.2.2.2 (by omega)
          have := e k
          rw [h0, Memory.read_cons, if_pos rfl] at this
          exact absurd this h.2.2.1
        · exact heq
        · have h0 : Memory.read ((k, v) :: m) k' = 0#8 := by
            rw [Memory.read_cons, if_neg (by omega)]
            exact Memory.read_of_lt h.2.2.2 (by omega)
          have := e k'
          rw [h0, Memory.read_cons, if_pos rfl] at this
          exact absurd this.symm h'.2.2.1
      subst hk
      have hv : v = v' := by simpa [Memory.read_cons] using e k
      subst hv
      congr 1
      refine ih h.2.2.2 h'.2.2.2 fun a => ?_
      by_cases hak : k = a
      · subst hak
        rw [Memory.read_of_lt h.2.2.2 (by omega), Memory.read_of_lt h'.2.2.2 (by omega)]
      · simpa [Memory.read_cons, hak] using e a

theorem Memory.ext_of_wf {m m' : Memory} (h : m.wf = true) (h' : m'.wf = true) (e : ∀ a, m.read a = m'.read a) : m = m' :=
  Memory.wfFrom_ext h h' e

/-! ### Read after write -/

/-- Reading after one write, in a list of rising addresses. -/
theorem Memory.read_write_from {lo : Nat} {m : Memory} (h : Memory.wfFrom lo m = true) (a : Nat) (b : Byte) (c : Nat) :
    (m.write a b).read c = if c = a then b else m.read c := by
  induction m generalizing lo with
  | nil =>
    unfold Memory.write
    split
    · rename_i hb; split <;> simp_all
    · rw [Memory.read_cons]; by_cases hc : c = a
      · subst hc; simp
      · have : ¬ a = c := fun e => hc e.symm
        simp [hc, this]
  | cons d m ih =>
    obtain ⟨k, v⟩ := d
    rw [Memory.wfFrom_cons] at h
    obtain ⟨h1, h2, h3, h4⟩ := h
    unfold Memory.write
    by_cases hak : a < k
    · rw [if_pos hak]
      have h0 : ∀ c, c = a → Memory.read ((k, v) :: m) c = 0#8 := by
        intro c hc; subst hc
        rw [Memory.read_cons, if_neg (by omega)]
        exact Memory.read_of_lt h4 (by omega)
      split
      · rename_i hb; subst hb
        split
        · exact h0 c (by assumption)
        · rfl
      · rw [Memory.read_cons (k := a)]
        by_cases hc : c = a
        · simp [hc]
        · have : ¬ a = c := fun e => hc e.symm
          simp [hc, this]
    · rw [if_neg hak]
      by_cases hk : a = k
      · subst hk
        rw [if_pos rfl]
        split
        · rename_i hb; subst hb
          rw [Memory.read_cons]
          by_cases hc : c = a
          · subst hc; simp [Memory.read_of_lt h4 (Nat.lt_succ_self c)]
          · have : ¬ a = c := fun e => hc e.symm
            simp [hc, this]
        · rw [Memory.read_cons, Memory.read_cons]
          by_cases hc : c = a
          · subst hc; simp
          · have : ¬ a = c := fun e => hc e.symm
            simp [hc, this]
      · rw [if_neg hk, Memory.read_cons, Memory.read_cons, ih h4]
        by_cases hkc : k = c
        · subst hkc
          have : ¬ k = a := fun e => hk e.symm
          simp [this]
        · simp [hkc]

/-- In canonical memory a byte written is the byte read. -/
theorem Memory.read_write_same {m : Memory} (h : m.wf = true) (a : Nat) (b : Byte) : (m.write a b).read a = b := by
  rw [Memory.read_write_from h, if_pos rfl]

/-- A write leaves every other address alone, in any list. -/
theorem Memory.read_write_other (m : Memory) (a : Nat) (b : Byte) {c : Nat} (hc : c ≠ a) :
    (m.write a b).read c = m.read c := by
  have hac : ¬ a = c := fun e => hc e.symm
  induction m with
  | nil => unfold Memory.write; split <;> simp [Memory.read_cons, hac]
  | cons d m ih =>
    obtain ⟨k, v⟩ := d
    unfold Memory.write
    split
    · split <;> simp [Memory.read_cons, hac]
    · split
      · rename_i hk
        subst hk
        split <;> simp [Memory.read_cons, hac]
      · rw [Memory.read_cons, Memory.read_cons, ih]

/-! ### Big-endian values (R10) -/

theorem Memory.wf_writeBE {m : Memory} {a n : Nat} (v : Nat) (h : m.wf = true) (ha : a + n ≤ 4096) :
    (m.writeBE a n v).wf = true := by
  induction n generalizing m a with
  | zero => exact h
  | succ n ih =>
    unfold Memory.writeBE
    exact ih (Memory.wf_write _ h (by omega)) (by omega)

/-- `MemWrite` touches only its own bytes. -/
theorem Memory.read_writeBE_outside (m : Memory) {a n : Nat} (v : Nat) {c : Nat} (hc : c < a ∨ a + n ≤ c) :
    (m.writeBE a n v).read c = m.read c := by
  induction n generalizing m a with
  | zero => rfl
  | succ n ih =>
    unfold Memory.writeBE
    rw [ih _ (by omega), Memory.read_write_other _ _ _ (by omega)]

/-- `MemWrite(a, n, v)` puts `v[8(n-1-k)+7 : 8(n-1-k)]` at `a + k` (R10). -/
theorem Memory.read_writeBE_inside {m : Memory} {a n : Nat} (v : Nat) {k : Nat} (h : m.wf = true) (ha : a + n ≤ 4096)
    (hk : k < n) : (m.writeBE a n v).read (a + k) = byteOf v (n - 1 - k) := by
  induction n generalizing m a k with
  | zero => omega
  | succ n ih =>
    unfold Memory.writeBE
    rcases Nat.eq_zero_or_pos k with h0 | hpos
    · subst h0
      rw [Memory.read_writeBE_outside _ _ (by omega), Nat.add_zero, Memory.read_write_same h]
      simp
    · have := ih (m := m.write a (byteOf v n)) (a := a + 1) (k := k - 1) (Memory.wf_write _ h (by omega)) (by omega) (by omega)
      rw [show a + 1 + (k - 1) = a + k by omega] at this
      rw [this]
      congr 1
      omega

/-- `MemRead` depends only on the bytes it reads. -/
theorem Memory.readBE_congr {m m' : Memory} {a n : Nat} (h : ∀ k, k < n → m.read (a + k) = m'.read (a + k)) :
    m.readBE a n = m'.readBE a n := by
  induction n generalizing a with
  | zero => rfl
  | succ n ih =>
    unfold Memory.readBE
    have h0 := h 0 (by omega)
    rw [Nat.add_zero] at h0
    rw [h0, ih fun k hk => ?_]
    have := h (k + 1) (by omega)
    rwa [show a + 1 + k = a + (k + 1) by omega]

theorem Memory.readBE_lt (m : Memory) (a n : Nat) : m.readBE a n < 256 ^ n := by
  induction n generalizing a with
  | zero => simp [Memory.readBE]
  | succ n ih =>
    unfold Memory.readBE
    have h1 := (m.read a).isLt
    have h2 := ih (a + 1)
    rw [Nat.pow_succ]
    nlinarith

theorem byteOf_toNat (v j : Nat) : (byteOf v j).toNat = v / 256 ^ j % 256 := by
  simp [byteOf]

/-- Bytes that are those of `v` read back as `v`. -/
theorem Memory.readBE_of_bytes {m : Memory} {a n v : Nat} (h : ∀ k, k < n → m.read (a + k) = byteOf v (n - 1 - k)) :
    m.readBE a n = v % 256 ^ n := by
  induction n generalizing a with
  | zero => simp [Memory.readBE, Nat.mod_one]
  | succ n ih =>
    unfold Memory.readBE
    have h0 := h 0 (by omega)
    rw [Nat.add_zero] at h0
    rw [h0, byteOf_toNat, ih (a := a + 1) fun k hk => ?_]
    · have e : v % 256 ^ (n + 1) = v % 256 ^ n + 256 ^ n * (v / 256 ^ n % 256) := Nat.mod_pow_succ
      rw [e]
      simp only [Nat.add_sub_cancel, Nat.sub_zero]
      rw [Nat.mul_comm, Nat.add_comm]
    · have := h (k + 1) (by omega)
      rw [show a + 1 + k = a + (k + 1) by omega, this]
      congr 1
      omega

/-- A value written reads back, narrowed to its width. -/
theorem Memory.readBE_writeBE {m : Memory} {a n : Nat} (v : Nat) (h : m.wf = true) (ha : a + n ≤ 4096) :
    (m.writeBE a n v).readBE a n = v % 256 ^ n :=
  Memory.readBE_of_bytes fun _ hk => Memory.read_writeBE_inside v h ha hk

/-- Each byte of a value read is the byte of memory it came from. -/
theorem Memory.readBE_byte (m : Memory) (a n j : Nat) (h : j < n) :
    m.readBE a n / 256 ^ (n - 1 - j) % 256 = (m.read (a + j)).toNat := by
  induction n generalizing a j with
  | zero => omega
  | succ n ih =>
    unfold Memory.readBE
    have hlt := Memory.readBE_lt m (a + 1) n
    rcases Nat.eq_zero_or_pos j with h0 | hp
    · subst h0
      have hb := (m.read a).isLt
      simp only [Nat.add_sub_cancel, Nat.sub_zero, Nat.add_zero]
      rw [Nat.mul_comm, Nat.mul_add_div (by positivity), Nat.div_eq_of_lt hlt]
      omega
    · have e : n + 1 - 1 - j = n - 1 - (j - 1) := by omega
      have hj := ih (a + 1) (j - 1) (by omega)
      rw [show a + 1 + (j - 1) = a + j by omega] at hj
      rw [e, ← hj]
      obtain ⟨d, hd⟩ : ∃ d, n = (n - 1 - (j - 1)) + (d + 1) := ⟨j - 1, by omega⟩
      have e2 : (m.read a).toNat * 256 ^ n = 256 ^ (n - 1 - (j - 1)) * (256 * ((m.read a).toNat * 256 ^ d)) := by
        conv_lhs => rw [hd, Nat.pow_add, Nat.pow_succ]
        ring
      rw [e2, Nat.mul_add_div (by positivity), Nat.mul_add_mod]

/-! ### Lists of bytes (R232) -/

theorem Memory.wf_writeBytes {m : Memory} {a : Nat} (bs : List Byte) (h : m.wf = true) (ha : a + bs.length ≤ 4096) :
    (m.writeBytes a bs).wf = true := by
  induction bs generalizing m a with
  | nil => exact h
  | cons b bs ih =>
    unfold Memory.writeBytes
    simp only [List.length_cons] at ha
    exact ih (Memory.wf_write _ h (by omega)) (by omega)

theorem Memory.read_writeBytes_outside (m : Memory) {a : Nat} (bs : List Byte) {c : Nat} (hc : c < a ∨ a + bs.length ≤ c) :
    (m.writeBytes a bs).read c = m.read c := by
  induction bs generalizing m a with
  | nil => rfl
  | cons b bs ih =>
    unfold Memory.writeBytes
    simp only [List.length_cons] at hc
    rw [ih _ (by omega), Memory.read_write_other _ _ _ (by omega)]

theorem Memory.read_writeBytes_inside {m : Memory} {a : Nat} {bs : List Byte} {k : Nat} (h : m.wf = true)
    (ha : a + bs.length ≤ 4096) (hk : k < bs.length) : (m.writeBytes a bs).read (a + k) = bs[k] := by
  induction bs generalizing m a k with
  | nil => simp at hk
  | cons b bs ih =>
    unfold Memory.writeBytes
    simp only [List.length_cons] at ha hk
    rcases k with - | k
    · rw [Memory.read_writeBytes_outside _ _ (by omega), Nat.add_zero, Memory.read_write_same h]
      rfl
    · have := ih (m := m.write a b) (a := a + 1) (k := k) (Memory.wf_write _ h (by omega)) (by omega) (by omega)
      rw [show a + 1 + k = a + (k + 1) by omega] at this
      rw [this]
      rfl

/-! ### Register blocks (R172, R173) -/

theorem wf_storeRegs {s : State} (n : Nat) (h : s.mem.wf = true) (ha : s.index + 8 * n ≤ 4096) :
    (storeRegs s n).wf = true := by
  induction n with
  | zero => exact h
  | succ n ih =>
    unfold storeRegs
    exact Memory.wf_writeBE _ (ih (by omega)) (by omega)

/-- A block store touches only its own bytes, in any memory. -/
theorem read_storeRegs_outside (s : State) (n : Nat) {c : Nat} (hc : c < s.index ∨ s.index + 8 * n ≤ c) :
    (storeRegs s n).read c = s.mem.read c := by
  induction n with
  | zero => rfl
  | succ n ih =>
    unfold storeRegs
    rw [Memory.read_writeBE_outside _ _ (by omega), ih (by omega)]

/-- Byte `j` of slot `k` of a stored block is byte `7 - j` of register `k` (R52, R172). -/
theorem read_storeRegs_inside {s : State} (n : Nat) (h : s.mem.wf = true) (ha : s.index + 8 * n ≤ 4096) {k j : Nat}
    (hk : k < n) (hj : j < 8) :
    (storeRegs s n).read (s.index + 8 * k + j) = byteOf (s.reg (BitVec.ofNat 4 k)).toNat (7 - j) := by
  induction n with
  | zero => omega
  | succ n ih =>
    unfold storeRegs
    by_cases hkn : k = n
    · subst hkn
      exact Memory.read_writeBE_inside _ (wf_storeRegs _ h (by omega)) (by omega) hj
    · rw [Memory.read_writeBE_outside _ _ (by omega)]
      exact ih (by omega) (by omega)

/-- What a block load leaves in each register. -/
theorem reg_loadRegs (s : State) (n : Nat) (hn : n ≤ 16) (r : Reg) :
    (loadRegs s n).reg r =
      if r.toNat < n then BitVec.ofNat 64 (s.mem.readBE (s.index + 8 * r.toNat) 8) else s.reg r := by
  induction n with
  | zero => simp [loadRegs]
  | succ n ih =>
    unfold loadRegs
    rw [State.reg_setReg, ih (by omega)]
    by_cases hr : r = BitVec.ofNat 4 n
    · have : r.toNat = n := by rw [hr]; simp; omega
      rw [if_pos hr, if_pos (by omega), this]
    · have : r.toNat ≠ n := fun e => hr (by rw [← e]; simp)
      rw [if_neg hr]
      by_cases h2 : r.toNat < n
      · rw [if_pos h2, if_pos (by omega)]
      · rw [if_neg h2, if_neg (by omega)]

theorem loadRegs_frame (s : State) (n : Nat) :
    (loadRegs s n).pc = s.pc ∧ (loadRegs s n).index = s.index ∧ (loadRegs s n).stack = s.stack ∧
      (loadRegs s n).engine = s.engine ∧ (loadRegs s n).mem = s.mem ∧ (loadRegs s n).consoleIn = s.consoleIn ∧
      (loadRegs s n).transcript = s.transcript ∧ (loadRegs s n).draws = s.draws := by
  induction n with
  | zero => simp [loadRegs]
  | succ n ih => simpa [loadRegs] using ih

theorem blockCount_le (x : Reg) : blockCount x ≤ 16 := by
  have := x.isLt
  unfold blockCount
  omega

theorem inRange_iff (a n : Nat) : inRange a n = true ↔ a + n ≤ 4096 := by
  simp only [inRange, decide_eq_true_eq]
  rfl

end Sys2Proof.Machine
end

