-- ==== Sys2Proof/Laws/Exec.lean ====
section
/-! SUPPORT. One lemma per shared operation of the meanings: everything it can answer. -/

namespace Sys2Proof.Machine

/-! ### Ends of a cycle -/

@[simp] theorem complete_eq (s : State) : complete s = .next s.advance := rfl

@[simp] theorem transfer_eq (s : State) (n : Nat) : transfer s n = .next (s.setPc n) := rfl

@[simp] theorem raise_eq (f : Fault) : raise f = .fault f := rfl

/-- A skip lands 4 or 2 bytes on. -/
@[simp] theorem skipIf_eq (c : Bool) (s : State) :
    skipIf c s = .next (s.setPc (if c then s.pc + 4 else s.pc + 2)) := by
  cases c <;> rfl

/-- A cycle that has a next state answers it. -/
theorem next_of_nextState {r : Result} {t : State} (h : nextState r = some t) : r = .next t := by
  cases r <;> simp_all [nextState]

theorem exists_next {r : Result} (h : (nextState r).isSome = true) : ∃ t, r = .next t := by
  cases hr : nextState r with
  | none => simp [hr] at h
  | some t => exact ⟨t, next_of_nextState hr⟩

/-- A cycle that has a fault answers it. -/
theorem fault_of_faultOf {r : Result} {f : Fault} (h : faultOf r = some f) : r = .fault f := by
  cases r <;> simp_all [faultOf]

/-! ### Operands -/

theorem zextNN_toNat (nn : BitVec 8) : (zextNN nn).toNat = nn.toNat := by
  have := nn.isLt
  simp [zextNN]
  omega

/-- Comparing a register with a constant is comparing the numbers (R123, R124). -/
theorem eq_zextNN_iff (v : Word) (nn : BitVec 8) : v = zextNN nn ↔ v.toNat = nn.toNat := by
  rw [← zextNN_toNat nn]
  exact ⟨congrArg BitVec.toNat, BitVec.eq_of_toNat_eq⟩

/-- This build takes the nibble as the amount (R148). -/
theorem shiftAmount_eq (a : BitVec 4) : shiftAmount a = a.toNat := rfl

/-- The byte of a register value at a place, both ways of saying it. -/
theorem byteOf_eq_extract (v : Word) (j : Nat) : byteOf v.toNat j = v.extractLsb' (8 * j) 8 := by
  apply BitVec.eq_of_toNat_eq
  have e : 256 ^ j = 2 ^ (8 * j) := by rw [Nat.pow_mul]
  rw [byteOf_toNat, BitVec.extractLsb'_toNat, Nat.shiftRight_eq_div_pow, e]

/-! ### Call -/

/-- CALL faults exactly on a full stack; else it pushes its own address and jumps. -/
theorem callWith_cases (cap : Option Nat) (nnn : BitVec 12) (s : State) :
    (cap = some s.stack.length ∧ callWith cap nnn s = .fault (.stackOverflow s.pc)) ∨
      (cap ≠ some s.stack.length ∧ callWith cap nnn s = .next ((s.push s.pc).setPc nnn.toNat)) := by
  unfold callWith
  by_cases h : cap = some s.stack.length
  · exact .inl ⟨h, by simp [h]⟩
  · exact .inr ⟨h, by simp [h, addrNNN]⟩

/-- This build's CALL never faults (R204). -/
theorem execCall_eq (nnn : BitVec 12) (s : State) : execCall nnn s = .next ((s.push s.pc).setPc nnn.toNat) := rfl

/-- ADD's test on the wrapped sum is the carry of the exact one (R146, R152). -/
theorem carryOut_iff (a b : Word) : carryOut (a + b) a = decide (2 ^ 64 ≤ a.toNat + b.toNat) := by
  unfold carryOut
  congr 1
  rw [BitVec.lt_def, BitVec.toNat_add]
  apply propext
  have := a.isLt
  have := b.isLt
  omega

/-- The flag a subtraction writes, as a word. -/
theorem flagWord_noBorrow (m n : Word) : flagWord (noBorrow m n) = if n ≤ m then 1#64 else 0#64 := by
  unfold noBorrow flagWord
  simp

theorem flagWord_toNat (b : Bool) : (flagWord b).toNat = b.toNat := by
  cases b <;> rfl

/-- A bit of a register value as arithmetic on the number. -/
theorem getLsbD_toNat (v : Word) (k : Nat) : (v.getLsbD k).toNat = v.toNat / 2 ^ k % 2 := by
  rw [← BitVec.testBit_toNat, Nat.testBit_eq_decide_div_mod_eq]
  rcases Nat.mod_two_eq_zero_or_one (v.toNat / 2 ^ k) with h | h <;> simp [h]

/-! ### The register file after the flag-writing operations -/

/-- SUB and RSUB: every register afterwards, the second statement reading the flag just written (R147, R149, R154). -/
theorem reg_subtractInto (m n : Reg) (s : State) (q : Reg) :
    (subtractInto m n s).reg q =
      if q = m then
        (if m = Reg.vf then flagWord (noBorrow (s.reg m) (s.reg n)) else s.reg m) -
          (if n = Reg.vf then flagWord (noBorrow (s.reg m) (s.reg n)) else s.reg n)
      else if q = Reg.vf then flagWord (noBorrow (s.reg m) (s.reg n))
      else s.reg q := by
  simp only [subtractInto, State.reg_setReg, State.reg_setFlag]

theorem subtractInto_frame (m n : Reg) (s : State) :
    (subtractInto m n s).pc = s.pc ∧ ControlKept s (subtractInto m n s) ∧ (subtractInto m n s).mem = s.mem ∧
      OutsideKept s (subtractInto m n s) := by
  simp [subtractInto, ControlKept, OutsideKept]

theorem reg_shiftRightBy (x : Reg) (a : Nat) (s : State) (q : Reg) :
    (shiftRightBy x a s).reg q =
      if a = 0 then (if q = Reg.vf then 0#64 else s.reg q)
      else if q = x then (if x = Reg.vf then flagWord (bitOutRight (s.reg x) a) else s.reg x) >>> a
      else if q = Reg.vf then flagWord (bitOutRight (s.reg x) a)
      else s.reg q := by
  unfold shiftRightBy
  split <;> simp only [State.reg_setReg, State.reg_setFlag, flagWord_false]

theorem reg_shiftLeftBy (x : Reg) (a : Nat) (s : State) (q : Reg) :
    (shiftLeftBy x a s).reg q =
      if a = 0 then (if q = Reg.vf then 0#64 else s.reg q)
      else if q = x then (if x = Reg.vf then flagWord (bitOutLeft (s.reg x) a) else s.reg x) <<< a
      else if q = Reg.vf then flagWord (bitOutLeft (s.reg x) a)
      else s.reg q := by
  unfold shiftLeftBy
  split <;> simp only [State.reg_setReg, State.reg_setFlag, flagWord_false]

theorem shiftRightBy_frame (x : Reg) (a : Nat) (s : State) :
    (shiftRightBy x a s).pc = s.pc ∧ ControlKept s (shiftRightBy x a s) ∧ (shiftRightBy x a s).mem = s.mem ∧
      OutsideKept s (shiftRightBy x a s) := by
  unfold shiftRightBy
  split <;> simp [ControlKept, OutsideKept]

theorem shiftLeftBy_frame (x : Reg) (a : Nat) (s : State) :
    (shiftLeftBy x a s).pc = s.pc ∧ ControlKept s (shiftLeftBy x a s) ∧ (shiftLeftBy x a s).mem = s.mem ∧
      OutsideKept s (shiftLeftBy x a s) := by
  unfold shiftLeftBy
  split <;> simp [ControlKept, OutsideKept]

/-! ### Register blocks -/

/-- SPILL stores the block or faults, by the one range test (R172). -/
theorem execSpill_cases (x : Reg) (s : State) :
    (s.index + blockBytes x ≤ 4096 ∧ execSpill x s = .next (s.setMem (storeRegs s (blockCount x))).advance) ∨
      (4096 < s.index + blockBytes x ∧ execSpill x s = .fault (.addressFault s.index (blockBytes x))) := by
  unfold execSpill
  by_cases h : s.index + blockBytes x ≤ 4096
  · exact .inl ⟨h, by rw [if_pos ((inRange_iff _ _).2 h)]; rfl⟩
  · exact .inr ⟨by omega, by rw [if_neg (fun e => h ((inRange_iff _ _).1 e))]; rfl⟩

/-- LOADB loads the block or faults, by the same test (R173). -/
theorem execLoadb_cases (x : Reg) (s : State) :
    (s.index + blockBytes x ≤ 4096 ∧ execLoadb x s = .next (loadRegs s (blockCount x)).advance) ∨
      (4096 < s.index + blockBytes x ∧ execLoadb x s = .fault (.addressFault s.index (blockBytes x))) := by
  unfold execLoadb
  by_cases h : s.index + blockBytes x ≤ 4096
  · exact .inl ⟨h, by rw [if_pos ((inRange_iff _ _).2 h)]; rfl⟩
  · exact .inr ⟨by omega, by rw [if_neg (fun e => h ((inRange_iff _ _).1 e))]; rfl⟩

/-! ### Console -/

@[simp] theorem display_eq (b : Base) (x : Reg) (s : State) :
    display b x s = .next (s.writeLine (formatNumeral b (s.reg x))).advance := rfl

/-- An input instruction waits, completes or fails, by the next string (R189 to R192). -/
theorem input_cases (b : Base) (x : Reg) (s : State) :
    (s.consoleIn = [] ∧ input b x s = .next s) ∨
      (∃ l rest v, s.consoleIn = l :: rest ∧ inputValue b l = some v ∧
        input b x s = .next ((s.takeLine b x).setReg x v).advance) ∨
      (∃ l rest, s.consoleIn = l :: rest ∧ inputValue b l = none ∧ input b x s = .fault (.inputParseFailure b l)) := by
  unfold input
  cases hc : s.consoleIn with
  | nil => exact .inl ⟨rfl, rfl⟩
  | cons l rest =>
    cases hv : inputValue b l with
    | none => exact .inr (.inr ⟨l, rest, rfl, hv, by simp [hv]⟩)
    | some v => exact .inr (.inl ⟨l, rest, v, rfl, hv, by simp [hv]⟩)

/-! ### Fetching -/

theorem fetchBytes_of_le {s : State} (h : s.pc ≤ 4094) :
    s.fetchBytes = [s.mem.read s.pc, s.mem.read (s.pc + 1)] := by
  unfold State.fetchBytes
  rw [if_pos ((inRange_iff _ _).2 (by omega))]

theorem fetchBytes_of_gt {s : State} (h : 4094 < s.pc) : s.fetchBytes = [] := by
  unfold State.fetchBytes
  rw [if_neg fun e => by have := (inRange_iff _ _).1 e; omega]

/-- At a fetchable address the decoder sees the word at `pc` (R101). -/
theorem decode_fetchBytes {s : State} (h : s.pc ≤ 4094) : decodeBytes s.fetchBytes = decode s.word := by
  rw [fetchBytes_of_le h]
  rfl

/-- The word-level decoder never answers a truncation. -/
theorem decode_cases (w : Code) : (∃ i, decode w = .instr i) ∨ decode w = .unrecognised w := by
  unfold decode
  split
  · exact .inl ⟨_, rfl⟩
  split
  · exact .inl ⟨_, rfl⟩
  unfold decodeFamily
  split <;> first
    | exact .inr rfl
    | exact .inl ⟨_, rfl⟩
    | (unfold decodeAlu; split <;> first | exact .inr rfl | exact .inl ⟨_, rfl⟩)
    | (unfold decodeOutput; split <;> first | exact .inr rfl | exact .inl ⟨_, rfl⟩)
    | (unfold decodeIndex; split <;> first | exact .inr rfl | exact .inl ⟨_, rfl⟩)
    | (unfold decodeInput; split <;> first | exact .inr rfl | exact .inl ⟨_, rfl⟩)

/-- Everything a step can be: nothing on a halted engine, a fetch fault, the decoded instruction, or the no-op. -/
theorem step_cases (s : State) :
    (s.engine = .halted ∧ step s = .next s) ∨
      (s.engine = .running ∧ 4094 < s.pc ∧ step s = .fault (.fetchFault s.pc)) ∨
      (∃ i, s.engine = .running ∧ s.pc ≤ 4094 ∧ decode s.word = .instr i ∧ step s = exec i s) ∨
      (s.engine = .running ∧ s.pc ≤ 4094 ∧ decode s.word = .unrecognised s.word ∧ step s = .next s.advance) := by
  unfold step
  cases he : s.engine with
  | halted => exact .inl ⟨rfl, rfl⟩
  | running =>
    refine .inr ?_
    by_cases hp : s.pc ≤ 4094
    · refine .inr ?_
      have hd := decode_fetchBytes hp
      rcases decode_cases s.word with ⟨i, hi⟩ | hu
      · exact .inl ⟨i, rfl, hp, hi, by rw [hd, hi]⟩
      · exact .inr ⟨rfl, hp, hu, by rw [hd, hu]; rfl⟩
    · exact .inl ⟨rfl, by omega, by rw [fetchBytes_of_gt (by omega)]; rfl⟩

/-! ### The strings handed to the console, and the state after a fault -/

@[simp] theorem writtenLines_append (ts us : List Transaction) :
    writtenLines (ts ++ us) = writtenLines ts ++ writtenLines us := List.filterMap_append

@[simp] theorem writtenLines_writeLine (l : Line) : writtenLines [.writeLine l] = [l] := rfl

@[simp] theorem writtenLines_readLine (p a : Line) : writtenLines [.readLine p a] = [] := rfl

/-- After a fault the state is the one before, or, for a failed input, that state with the string taken. -/
theorem afterFault_cases (s : State) (f : Fault) :
    s.afterFault f = s ∨ ∃ b r, s.afterFault f = s.takeLine b r := by
  cases f <;> first | exact .inl rfl | exact .inr ⟨_, _, rfl⟩

/-- Taking an input string writes nothing to the console. -/
theorem writtenLines_takeLine (s : State) (b : Base) (r : Reg) :
    writtenLines (s.takeLine b r).transcript = writtenLines s.transcript := by
  unfold State.takeLine
  split <;> simp

end Sys2Proof.Machine
end

