-- ==== Sys2Proof/Laws/Numerals.lean ====
section
/-! SUPPORT. What the numerals of the output instructions are: digits of the base, whose value is the register's (R193). -/

namespace Sys2Proof.Machine

theorem charValue_digitChar : ∀ d < 16, charValue (digitChar d) = some d := by decide

theorem charValue_capital_digitChar : ∀ d < 16, charValue (capital (digitChar d)) = some d := by decide

theorem Base.radix_le (b : Base) : 2 ≤ b.radix ∧ b.radix ≤ 16 := by cases b <;> decide

/-- Reading on from what was read before: the value so far moves up and the rest is added. -/
theorem numeralValue_append (b : Base) (l m : Line) :
    numeralValue b (l ++ m) = numeralValue b l * b.radix ^ m.length + numeralValue b m := by
  induction m using List.reverseRecOn with
  | nil => simp [numeralValue]
  | append_singleton m c ih =>
    rw [← List.append_assoc]
    simp only [numeralValue, List.foldl_append, List.foldl_cons, List.foldl_nil, List.length_append,
      List.length_singleton, pow_succ] at ih ⊢
    rw [ih]; ring

/-- Padding zeros leave the value of a numeral as it is. -/
theorem numeralValue_zeros (b : Base) (n : Nat) (l : Line) :
    numeralValue b (List.replicate n '0' ++ l) = numeralValue b l := by
  have h : numeralValue b (List.replicate n '0') = 0 := by
    induction n with
    | zero => rfl
    | succ n ih => rw [List.replicate_succ', numeralValue_append, ih]; simp [numeralValue, charValue]
  rw [numeralValue_append, h, Nat.zero_mul, Nat.zero_add]

/-- The shortest numeral with enough digits: every character is a digit of the base, also as a capital, and the value
is the number's, in either case. -/
theorem shortestNumeral_spec (b : Base) (g : Char → Char) (hg : ∀ d < 16, charValue (g (digitChar d)) = some d) :
    ∀ fuel v, 0 < fuel → v < b.radix ^ fuel →
      IsNumeral b ((shortestNumeral b.radix fuel v).map g) ∧
        numeralValue b ((shortestNumeral b.radix fuel v).map g) = v := by
  have hr := Base.radix_le b
  have one : ∀ d, d < b.radix → IsNumeral b [g (digitChar d)] ∧ numeralValue b [g (digitChar d)] = d := by
    intro d hd
    have hv := hg d (by omega)
    exact ⟨⟨by simp, by simp [hv, hd]⟩, by simp [numeralValue, hv]⟩
  intro fuel
  induction fuel with
  | zero => intro v h; omega
  | succ f ih =>
    intro v _ hv
    unfold shortestNumeral
    by_cases h : v < b.radix
    · rw [if_pos h]; exact one v h
    · have hf : 0 < f := by
        rcases Nat.eq_zero_or_pos f with rfl | hf
        · simp at hv; omega
        · exact hf
      obtain ⟨⟨hne, hd⟩, hval⟩ := ih (v / b.radix) hf (Nat.div_lt_of_lt_mul (by rwa [pow_succ, Nat.mul_comm] at hv))
      obtain ⟨⟨_, hd'⟩, hval'⟩ := one (v % b.radix) (Nat.mod_lt _ (by omega))
      rw [if_neg h, List.map_append]
      refine ⟨⟨by simp, fun c hc => ?_⟩, ?_⟩
      · rcases List.mem_append.1 hc with hc | hc
        · exact hd c hc
        · exact hd' c hc
      · rw [numeralValue_append, hval]
        simp only [List.map_cons, List.map_nil, List.length_singleton, pow_one]
        rw [hval']; exact Nat.div_add_mod' v b.radix

/-- The digits of a spelling are digits of the base and have the value of the register. -/
theorem spelledDigits_spec (f : Spelling) (b : Base) (v : Word) :
    IsNumeral b (spelledDigits f b v) ∧ numeralValue b (spelledDigits f b v) = v.toNat := by
  have hv : v.toNat < b.radix ^ 64 :=
    v.isLt.trans_le (Nat.pow_le_pow_left (Base.radix_le b).1 64)
  have key : ∀ g : Char → Char, (∀ d < 16, charValue (g (digitChar d)) = some d) →
      IsNumeral b (List.replicate f.zeros '0' ++ (plainNumeral b v).map g) ∧
        numeralValue b (List.replicate f.zeros '0' ++ (plainNumeral b v).map g) = v.toNat := by
    intro g hg
    obtain ⟨⟨hne, hd⟩, hval⟩ := shortestNumeral_spec b g hg 64 v.toNat (by omega) hv
    refine ⟨⟨by simp [plainNumeral] at hne ⊢; exact fun _ => hne, fun c hc => ?_⟩, by rw [numeralValue_zeros]; exact hval⟩
    rcases List.mem_append.1 hc with hc | hc
    · rw [List.eq_of_mem_replicate hc]
      exact ⟨0, by decide, by have := Base.radix_le b; omega⟩
    · exact hd c hc
  unfold spelledDigits
  split
  · exact key capital charValue_capital_digitChar
  · simpa using key id charValue_digitChar

end Sys2Proof.Machine
end

