-- ==== Sys2Proof/Laws/PerInstr.lean ====
section
/-! SUPPORT. Per instruction: its row is in the opcode table and its encoding falls in that row (spec/30_encoding.md R75). -/

namespace Sys2Proof.Laws

/-- The instruction's row is a row of the table, and the word that encodes it, whatever its operands, matches that row. -/
def InTableRow.Statement (i : Instr) : Prop :=
  i.row ∈ opcodeTable ∧ i.row.matches (encode i) = true

/-- The low nibbles of a packed selector byte. -/
theorem lowNibbles_packK (t : BitVec 4) (x : Reg) (nn : BitVec 8) :
    fieldY (packK t x nn) = nn.extractLsb' 4 4 ∧ fieldN (packK t x nn) = nn.extractLsb' 0 4 :=
  (fieldNN_eq_iff _ _).1 (by simp)

/-- Every instruction's row is in the table: rows do not depend on operands. -/
theorem row_mem (i : Instr) : i.row ∈ opcodeTable := by
  cases i <;> simp [opcodeTable, tableInstrs, Instr.row]

theorem InTableRow.halt : InTableRow.Statement (.halt) :=
  ⟨row_mem _, by decide⟩

theorem InTableRow.ret : InTableRow.Statement (.ret) :=
  ⟨row_mem _, by decide⟩

theorem InTableRow.jp (nnn : BitVec 12) : InTableRow.Statement (.jp nnn) :=
  ⟨row_mem _, (matches_iff _ _ 1 0 0 0 15 0 0 0).2 (by simp [encode, ones_and])⟩

theorem InTableRow.call (nnn : BitVec 12) : InTableRow.Statement (.call nnn) :=
  ⟨row_mem _, (matches_iff _ _ 2 0 0 0 15 0 0 0).2 (by simp [encode, ones_and])⟩

theorem InTableRow.seqk (x : Reg) (nn : BitVec 8) : InTableRow.Statement (.seqk x nn) :=
  ⟨row_mem _, (matches_iff _ _ 3 0 0 0 15 0 0 0).2 (by simp [encode, ones_and])⟩

theorem InTableRow.snek (x : Reg) (nn : BitVec 8) : InTableRow.Statement (.snek x nn) :=
  ⟨row_mem _, (matches_iff _ _ 4 0 0 0 15 0 0 0).2 (by simp [encode, ones_and])⟩

theorem InTableRow.seq (x : Reg) (y : Reg) (n : BitVec 4) : InTableRow.Statement (.seq x y n) :=
  ⟨row_mem _, (matches_iff _ _ 5 0 0 0 15 0 0 0).2 (by simp [encode, ones_and])⟩

theorem InTableRow.ldk (x : Reg) (nn : BitVec 8) : InTableRow.Statement (.ldk x nn) :=
  ⟨row_mem _, (matches_iff _ _ 6 0 0 0 15 0 0 0).2 (by simp [encode, ones_and])⟩

theorem InTableRow.addk (x : Reg) (nn : BitVec 8) : InTableRow.Statement (.addk x nn) :=
  ⟨row_mem _, (matches_iff _ _ 7 0 0 0 15 0 0 0).2 (by simp [encode, ones_and])⟩

theorem InTableRow.mov (x : Reg) (y : Reg) : InTableRow.Statement (.mov x y) :=
  ⟨row_mem _, (matches_iff _ _ 8 0 0 0 15 0 0 15).2 (by simp [encode, ones_and])⟩

theorem InTableRow.or (x : Reg) (y : Reg) : InTableRow.Statement (.or x y) :=
  ⟨row_mem _, (matches_iff _ _ 8 0 0 1 15 0 0 15).2 (by simp [encode, ones_and])⟩

theorem InTableRow.and (x : Reg) (y : Reg) : InTableRow.Statement (.and x y) :=
  ⟨row_mem _, (matches_iff _ _ 8 0 0 2 15 0 0 15).2 (by simp [encode, ones_and])⟩

theorem InTableRow.xor (x : Reg) (y : Reg) : InTableRow.Statement (.xor x y) :=
  ⟨row_mem _, (matches_iff _ _ 8 0 0 3 15 0 0 15).2 (by simp [encode, ones_and])⟩

theorem InTableRow.add (x : Reg) (y : Reg) : InTableRow.Statement (.add x y) :=
  ⟨row_mem _, (matches_iff _ _ 8 0 0 4 15 0 0 15).2 (by simp [encode, ones_and])⟩

theorem InTableRow.sub (x : Reg) (y : Reg) : InTableRow.Statement (.sub x y) :=
  ⟨row_mem _, (matches_iff _ _ 8 0 0 5 15 0 0 15).2 (by simp [encode, ones_and])⟩

theorem InTableRow.shr (x : Reg) (a : BitVec 4) : InTableRow.Statement (.shr x a) :=
  ⟨row_mem _, (matches_iff _ _ 8 0 0 6 15 0 0 15).2 (by simp [encode, ones_and])⟩

theorem InTableRow.rsub (x : Reg) (y : Reg) : InTableRow.Statement (.rsub x y) :=
  ⟨row_mem _, (matches_iff _ _ 8 0 0 7 15 0 0 15).2 (by simp [encode, ones_and])⟩

theorem InTableRow.shl (x : Reg) (a : BitVec 4) : InTableRow.Statement (.shl x a) :=
  ⟨row_mem _, (matches_iff _ _ 8 0 0 14 15 0 0 15).2 (by simp [encode, ones_and])⟩

theorem InTableRow.sne (x : Reg) (y : Reg) (n : BitVec 4) : InTableRow.Statement (.sne x y n) :=
  ⟨row_mem _, (matches_iff _ _ 9 0 0 0 15 0 0 0).2 (by simp [encode, ones_and])⟩

theorem InTableRow.seti (nnn : BitVec 12) : InTableRow.Statement (.seti nnn) :=
  ⟨row_mem _, (matches_iff _ _ 10 0 0 0 15 0 0 0).2 (by simp [encode, ones_and])⟩

theorem InTableRow.jpv0 (nnn : BitVec 12) : InTableRow.Statement (.jpv0 nnn) :=
  ⟨row_mem _, (matches_iff _ _ 11 0 0 0 15 0 0 0).2 (by simp [encode, ones_and])⟩

theorem InTableRow.rand (x : Reg) (nn : BitVec 8) : InTableRow.Statement (.rand x nn) :=
  ⟨row_mem _, (matches_iff _ _ 12 0 0 0 15 0 0 0).2 (by simp [encode, ones_and])⟩

theorem InTableRow.outx (x : Reg) : InTableRow.Statement (.outx x) :=
  ⟨row_mem _, (matches_iff _ _ 13 0 0 0 15 0 15 15).2 (by simp [encode, ones_and, lowNibbles_packK])⟩

theorem InTableRow.outd (x : Reg) : InTableRow.Statement (.outd x) :=
  ⟨row_mem _, (matches_iff _ _ 13 0 0 1 15 0 15 15).2 (by simp [encode, ones_and, lowNibbles_packK])⟩

theorem InTableRow.outb (x : Reg) : InTableRow.Statement (.outb x) :=
  ⟨row_mem _, (matches_iff _ _ 13 0 0 2 15 0 15 15).2 (by simp [encode, ones_and, lowNibbles_packK])⟩

theorem InTableRow.outo (x : Reg) : InTableRow.Statement (.outo x) :=
  ⟨row_mem _, (matches_iff _ _ 13 0 0 3 15 0 15 15).2 (by simp [encode, ones_and, lowNibbles_packK])⟩

theorem InTableRow.addi (x : Reg) : InTableRow.Statement (.addi x) :=
  ⟨row_mem _, (matches_iff _ _ 14 0 1 14 15 0 15 15).2 (by simp [encode, ones_and, lowNibbles_packK])⟩

theorem InTableRow.spill (x : Reg) : InTableRow.Statement (.spill x) :=
  ⟨row_mem _, (matches_iff _ _ 14 0 5 5 15 0 15 15).2 (by simp [encode, ones_and, lowNibbles_packK])⟩

theorem InTableRow.loadb (x : Reg) : InTableRow.Statement (.loadb x) :=
  ⟨row_mem _, (matches_iff _ _ 14 0 6 5 15 0 15 15).2 (by simp [encode, ones_and, lowNibbles_packK])⟩

theorem InTableRow.inx (x : Reg) : InTableRow.Statement (.inx x) :=
  ⟨row_mem _, (matches_iff _ _ 15 0 0 0 15 0 15 15).2 (by simp [encode, lowNibbles_packK])⟩

theorem InTableRow.ind (x : Reg) : InTableRow.Statement (.ind x) :=
  ⟨row_mem _, (matches_iff _ _ 15 0 0 1 15 0 15 15).2 (by simp [encode, ones_and, lowNibbles_packK])⟩

theorem InTableRow.inb (x : Reg) : InTableRow.Statement (.inb x) :=
  ⟨row_mem _, (matches_iff _ _ 15 0 0 2 15 0 15 15).2 (by simp [encode, ones_and, lowNibbles_packK])⟩

theorem InTableRow.ino (x : Reg) : InTableRow.Statement (.ino x) :=
  ⟨row_mem _, (matches_iff _ _ 15 0 0 3 15 0 15 15).2 (by simp [encode, ones_and, lowNibbles_packK])⟩

end Sys2Proof.Laws
end

