-- ==== Sys2Proof/Tests/Slice0.lean ====
section
/-! SUPPORT. Tests: the vectors of spec/95_test_vectors.md, words written out from spec/30_encoding.md, the well-formedness smoke
test, and for every obligation with hypotheses a witness that meets them. -/

namespace Sys2Proof.Tests

open Sys2Proof Sys2Proof.Machine

/-! ### Words written out from R75 decode to what they stand for -/

theorem test_decode_halt : decode 0b0000000000000000#16 = .instr (.halt) := by decide
theorem test_decode_ret : decode 0b0000000111101110#16 = .instr (.ret) := by decide
theorem test_decode_jp : decode 0b0001101010111100#16 = .instr (.jp 0xABC#12) := by decide
theorem test_decode_call : decode 0b0010010000000000#16 = .instr (.call 0x400#12) := by decide
theorem test_decode_seqk : decode 0b0011101001000010#16 = .instr (.seqk 0xA#4 0x42#8) := by decide
theorem test_decode_snek : decode 0b0100101001000010#16 = .instr (.snek 0xA#4 0x42#8) := by decide
theorem test_decode_seq : decode 0b0101101010110111#16 = .instr (.seq 0xA#4 0xB#4 0x7#4) := by decide
theorem test_decode_ldk : decode 0b0110101001011100#16 = .instr (.ldk 0xA#4 0x5C#8) := by decide
theorem test_decode_addk : decode 0b0111101011111111#16 = .instr (.addk 0xA#4 0xFF#8) := by decide
theorem test_decode_mov : decode 0b1000101010110000#16 = .instr (.mov 0xA#4 0xB#4) := by decide
theorem test_decode_or : decode 0b1000101010110001#16 = .instr (.or 0xA#4 0xB#4) := by decide
theorem test_decode_and : decode 0b1000101010110010#16 = .instr (.and 0xA#4 0xB#4) := by decide
theorem test_decode_xor : decode 0b1000101010110011#16 = .instr (.xor 0xA#4 0xB#4) := by decide
theorem test_decode_add : decode 0b1000101010110100#16 = .instr (.add 0xA#4 0xB#4) := by decide
theorem test_decode_sub : decode 0b1000101010110101#16 = .instr (.sub 0xA#4 0xB#4) := by decide
theorem test_decode_shr : decode 0b1000101000010110#16 = .instr (.shr 0xA#4 0x1#4) := by decide
theorem test_decode_rsub : decode 0b1000101010110111#16 = .instr (.rsub 0xA#4 0xB#4) := by decide
theorem test_decode_shl : decode 0b1000101000011110#16 = .instr (.shl 0xA#4 0x1#4) := by decide
theorem test_decode_sne : decode 0b1001101010110101#16 = .instr (.sne 0xA#4 0xB#4 0x5#4) := by decide
theorem test_decode_seti : decode 0b1010000100100011#16 = .instr (.seti 0x123#12) := by decide
theorem test_decode_jpv0 : decode 0b1011000100100011#16 = .instr (.jpv0 0x123#12) := by decide
theorem test_decode_rand : decode 0b1100101000001111#16 = .instr (.rand 0xA#4 0x0F#8) := by decide
theorem test_decode_outx : decode 0b1101101000000000#16 = .instr (.outx 0xA#4) := by decide
theorem test_decode_outd : decode 0b1101001000000001#16 = .instr (.outd 0x2#4) := by decide
theorem test_decode_outb : decode 0b1101101000000010#16 = .instr (.outb 0xA#4) := by decide
theorem test_decode_outo : decode 0b1101101000000011#16 = .instr (.outo 0xA#4) := by decide
theorem test_decode_addi : decode 0b1110101000011110#16 = .instr (.addi 0xA#4) := by decide
theorem test_decode_spill : decode 0b1110000101010101#16 = .instr (.spill 0x1#4) := by decide
theorem test_decode_loadb : decode 0b1110000101100101#16 = .instr (.loadb 0x1#4) := by decide
theorem test_decode_inx : decode 0b1111101000000000#16 = .instr (.inx 0xA#4) := by decide
theorem test_decode_ind : decode 0b1111101000000001#16 = .instr (.ind 0xA#4) := by decide
theorem test_decode_inb : decode 0b1111101000000010#16 = .instr (.inb 0xA#4) := by decide
theorem test_decode_ino : decode 0b1111101000000011#16 = .instr (.ino 0xA#4) := by decide

/-- Neighbours of R77 and R78 that are no instruction: 00EE, 8AB8, DA13, EA9E, FA1E. -/
theorem test_decode_unrecognised :
    ([0x00EE#16, 0x8AB8#16, 0xDA13#16, 0xEA9E#16, 0xFA1E#16].all fun w => decode w == .unrecognised w) = true := by decide

/-- One byte is no instruction word. -/
theorem test_decode_truncated : decodeBytes [0x12#8] = .truncated := by decide

/-- W1: the first byte is the high byte. -/
theorem test_decode_big_endian : decodeBytes [0x1A#8, 0xBC#8] = .instr (.jp 0xABC#12) := by decide

/-! ### Well-formedness (R76): the assembler's form refuses a bottom nibble other than 0 in SEQ and SNE -/

theorem smoke_canonical_refuses_seq : Instr.canonical (.seq 0xA#4 0xB#4 0x7#4) = false := by decide
theorem smoke_canonical_refuses_sne : Instr.canonical (.sne 0xA#4 0xB#4 0x5#4) = false := by decide
theorem smoke_canonical_accepts : Instr.canonical (.seq 0xA#4 0xB#4 0x0#4) = true := by decide

/-- R82: `RSUB Vx, Vy` keeps the encoding's operand order, and `.word` writes what the assembler does not emit. -/
theorem test_asm_operands : Instr.asmOperands (.rsub 0xA#4 0xF#4) = [['V', 'A'], ['V', 'F']] := by decide
theorem test_asm_raw_word :
    Instr.asm (.seq 0xA#4 0xB#4 0x7#4) = ['.', 'w', 'o', 'r', 'd', ' ', '0', 'x', '5', 'A', 'B', '7'] := by decide

/-! ### Single-instruction vectors of spec/95 section 2: the word at 0x200 -/

/-- The word at `pc = 0x200` in the given start state. -/
def at200 (w : Nat) (s : State) : State := (s.setPc 0x200).withFetchWord 16 w

/-- The reset state with register A holding `v`. -/
def withA (v : Word) : State := State.reset.setReg 0xA#4 v

/-- The reset state with registers A and B. -/
def withAB (v w : Word) : State := (withA v).setReg 0xB#4 w

/-- The reset state with VF and register B. -/
def withFB (v w : Word) : State := (State.reset.setReg Reg.vf v).setReg 0xB#4 w

/-- The reset state with strings waiting at the console. -/
def withInput (ls : List Line) : State := { State.reset with consoleIn := ls }

/-- Observe the state a step completed with. -/
def after {α : Type} (s : State) (f : State → α) : Option α := (nextState (step s)).map f

/-- `2^64 - 1`. -/
def M : Word := 0xFFFFFFFFFFFFFFFF#64

theorem test_halt : after (at200 0x0000 State.reset) (fun t => (t.engine, t.pc)) = some (.halted, 0x202) := by decide
theorem test_ret : after (at200 0x01EE (State.reset.push 0x300)) (fun t => (t.pc, t.stack)) = some (0x302, []) := by decide
theorem test_ret_empty : faultOf (step (at200 0x01EE State.reset)) = some (.stackUnderflow 0x200) := by decide
theorem test_jp_odd : after (at200 0x1201 State.reset) (fun t => t.pc) = some (0x201) := by decide
theorem test_call : after (at200 0x2400 (State.reset.push 0x100)) (fun t => (t.pc, t.stack)) = some (0x400, [0x200, 0x100]) := by decide
theorem test_seqk_taken : after (at200 0x3A42 (withA 0x42#64)) (fun t => t.pc) = some (0x204) := by decide
theorem test_seqk_all_bits : after (at200 0x3A42 (withA 0x142#64)) (fun t => t.pc) = some (0x202) := by decide
theorem test_snek_not_taken : after (at200 0x4A42 (withA 0x42#64)) (fun t => t.pc) = some (0x202) := by decide
theorem test_snek_taken : after (at200 0x4A42 (withA 0x43#64)) (fun t => t.pc) = some (0x204) := by decide
theorem test_seq_nibble_ignored : after (at200 0x5AB7 (withAB 7#64 7#64)) (fun t => t.pc) = some (0x204) := by decide
theorem test_seq_not_taken : after (at200 0x5AB0 (withAB 7#64 8#64)) (fun t => t.pc) = some (0x202) := by decide
theorem test_sne_nibble_ignored : after (at200 0x9AB5 (withAB 7#64 8#64)) (fun t => t.pc) = some (0x204) := by decide
theorem test_sne_not_taken : after (at200 0x9AB0 (withAB 7#64 7#64)) (fun t => t.pc) = some (0x202) := by decide
theorem test_jpv0_exact : after (at200 0xBFFF (State.reset.setReg Reg.v0 M)) (fun t => t.pc) = some (0x10000000000000ffe) := by decide
theorem test_ldk : after (at200 0x6A5C (withA M)) (fun t => t.reg 0xA#4) = some (0x5C#64) := by decide
theorem test_addk_wraps_without_flag : after (at200 0x7A01 (withA M)) (fun t => (t.reg 0xA#4, t.reg Reg.vf)) = some (0#64, 0#64) := by decide
theorem test_addk_vf : after (at200 0x7F01 (State.reset.setReg Reg.vf 1#64)) (fun t => t.reg Reg.vf) = some (2#64) := by decide
theorem test_mov : after (at200 0x8AB0 (withAB 0#64 0xDEAD#64)) (fun t => t.reg 0xA#4) = some (0xDEAD#64) := by decide
theorem test_or : after (at200 0x8AB1 (withAB 0xF0#64 0x0F#64)) (fun t => t.reg 0xA#4) = some (0xFF#64) := by decide
theorem test_and : after (at200 0x8AB2 (withAB 0xFF0#64 0x0FF#64)) (fun t => t.reg 0xA#4) = some (0xF0#64) := by decide
theorem test_xor_self : after (at200 0x8AA3 (withA 0x1234#64)) (fun t => t.reg 0xA#4) = some (0#64) := by decide
theorem test_add_wraps : after (at200 0x8AB4 (withAB M 1#64)) (fun t => (t.reg 0xA#4, t.reg Reg.vf)) = some (0#64, 1#64) := by decide
theorem test_add_vf_destination : after (at200 0x8FB4 (withFB M 2#64)) (fun t => t.reg Reg.vf) = some (1#64) := by decide
theorem test_sub_borrows : after (at200 0x8AB5 (withAB 0#64 1#64)) (fun t => (t.reg 0xA#4, t.reg Reg.vf)) = some (M, 0#64) := by decide
theorem test_sub_reads_new_vf : after (at200 0x8AF5 ((withA 10#64).setReg Reg.vf 3#64)) (fun t => (t.reg 0xA#4, t.reg Reg.vf)) = some (9#64, 1#64) := by decide
theorem test_shr_bit : after (at200 0x8A46 (withA 0x18#64)) (fun t => (t.reg 0xA#4, t.reg Reg.vf)) = some (1#64, 1#64) := by decide
theorem test_shr_zero : after (at200 0x8A06 ((withA 0xFF#64).setReg Reg.vf 1#64)) (fun t => (t.reg 0xA#4, t.reg Reg.vf)) = some (0xFF#64, 0#64) := by decide
theorem test_rsub_writes_y : after (at200 0x8AB7 (withAB 10#64 3#64)) (fun t => (t.reg 0xA#4, t.reg 0xB#4, t.reg Reg.vf)) = some (10#64, 0xFFFFFFFFFFFFFFF9#64, 0#64) := by decide
theorem test_rsub_vf_destination : after (at200 0x8AF7 ((withA 3#64).setReg Reg.vf 10#64)) (fun t => t.reg Reg.vf) = some (0xFFFFFFFFFFFFFFFE#64) := by decide
theorem test_shl_bit49 : after (at200 0x8AFE (withA 0x0002000000000001#64)) (fun t => (t.reg 0xA#4, t.reg Reg.vf)) = some (0x8000#64, 1#64) := by decide
theorem test_shl_vf : after (at200 0x8F1E (State.reset.setReg Reg.vf 0x8000000000000001#64)) (fun t => t.reg Reg.vf) = some (2#64) := by decide
theorem test_rand_one_draw : after (at200 0xCA00 State.reset) (fun t => (t.draws, t.pc)) = some (1, 0x202) := by decide
theorem test_seti : after (at200 0xAFFF (State.reset.setIndex 5)) (fun t => t.index) = some (0xFFF) := by decide
theorem test_addi_exact : after (at200 0xEA1E ((withA M).setIndex 0x100)) (fun t => (t.index, t.reg Reg.vf)) = some (0x100000000000000ff, 0#64) := by decide

/-- The start state of spec/95 2.12: `x[0] = 0x0102030405060708`, `x[1] = M`, `I = 0x300`. -/
def blockStart : State := ((State.reset.setReg 0x0#4 0x0102030405060708#64).setReg 0x1#4 M).setIndex 0x300

theorem test_spill : after (at200 0xE155 blockStart) (fun t => (t.mem.readBE 0x300 16, t.index)) = some (0x0102030405060708FFFFFFFFFFFFFFFF, 0x300) := by decide
theorem test_spill_past_end : faultOf (step (at200 0xEF55 (State.reset.setIndex 0xF81))) = some (.addressFault 0xF81 128) := by decide
theorem test_loadb : after (at200 0xE165 (((State.reset.setReg 0x2#4 9#64).setIndex 0x300).setMem (storeRegs blockStart 2))) (fun t => (t.reg 0x0#4, t.reg 0x1#4, t.reg 0x2#4)) = some (0x0102030405060708#64, M, 9#64) := by decide
theorem test_loadb_past_end : faultOf (step (at200 0xE065 (State.reset.setIndex 0x1000))) = some (.addressFault 0x1000 8) := by decide
theorem test_outd_max : after (at200 0xDA01 (withA M)) (fun t => t.transcript == [.writeLine ['1', '8', '4', '4', '6', '7', '4', '4', '0', '7', '3', '7', '0', '9', '5', '5', '1', '6', '1', '5']]) = some (true) := by decide
theorem test_outd_zero : after (at200 0xDA01 (withA 0#64)) (fun t => t.transcript == [.writeLine ['0']]) = some (true) := by decide

/-- The vectors' default spelling (R193) of 255 in hexadecimal, 5 in binary, 8 in octal. -/
theorem test_plain_numerals :
    (plainNumeral .hex 255#64, plainNumeral .bin 5#64, plainNumeral .oct 8#64) = (['f', 'f'], ['1', '0', '1'], ['1', '0']) := by
  decide

/-- 255 in hexadecimal in the vectors' default spelling, and with every open part of R193 taken the other way. -/
theorem test_spell :
    (spell ⟨0, false, false, 0, false, 0⟩ .hex 255#64, spell ⟨1, true, false, 2, true, 1⟩ .hex 255#64) =
      (['f', 'f'], [' ', '0', 'x', '0', '0', 'F', 'F', ' ']) := by
  decide

theorem test_inx : after (at200 0xFA00 (withInput [['f', 'f']])) (fun t => (t.reg 0xA#4, t.consoleIn)) = some (0xFF#64, []) := by decide
theorem test_ind : after (at200 0xFA01 (withInput [['4', '6', '1', '3', '7', '3', '2']])) (fun t => t.reg 0xA#4) = some (0x466664#64) := by decide
theorem test_ind_too_large :
    faultOf (step (at200 0xFA01 (withInput [['1', '8', '4', '4', '6', '7', '4', '4', '0', '7', '3', '7', '0', '9', '5', '5', '1', '6', '1', '6']]))) =
      some (.inputParseFailure .dec ['1', '8', '4', '4', '6', '7', '4', '4', '0', '7', '3', '7', '0', '9', '5', '5', '1', '6', '1', '6']) := by
  decide
theorem test_inb : after (at200 0xFA02 (withInput [['1', '0', '1', '1']])) (fun t => t.reg 0xA#4) = some (0xB#64) := by decide
theorem test_inb_foreign_digit :
    faultOf (step (at200 0xFA02 (withInput [['1', '2']]))) = some (.inputParseFailure .bin ['1', '2']) := by decide
theorem test_ino : after (at200 0xFA03 (withInput [['1', '7']])) (fun t => t.reg 0xA#4) = some (0xF#64) := by decide
theorem test_noop : after (at200 0x00E0 State.reset) (fun t => (t.pc, t.stack)) = some (0x202, []) := by decide

/-- 2.16: a fetch at 0xFFF faults, at 0xFFE it does not. -/
theorem test_fetch_edges :
    (faultOf (step (State.reset.setPc 0xFFF)), after (State.reset.setPc 0xFFE) fun t => t.pc) =
      (some (.fetchFault 0xFFF), some 0x1000) := by
  decide

/-! ### Witnesses: for every statement with hypotheses, a state and operands that meet them -/

/-- A running state at the last fetchable address, with `w` there. -/
def atEnd (w : Nat) : State := (State.reset.setPc 4094).withFetchWord 16 w

/-- A CALL with a saved address on the stack. -/
def callState : State := at200 0x2400 (State.reset.push 0x100)

/-- A RET on an empty stack. -/
def retState : State := at200 0x01EE State.reset

/-- An input instruction (IND VA) with the given strings. -/
def inputState (ls : List Line) : State := at200 0xFA01 (withInput ls)

/-- `2^64`, one too large for a register, in decimal. -/
def LBIG : Line := ['1', '8', '4', '4', '6', '7', '4', '4', '0', '7', '3', '7', '0', '9', '5', '5', '1', '6', '1', '6']

/-- `2^64 - 1` in decimal. -/
def LMAX : Line := ['1', '8', '4', '4', '6', '7', '4', '4', '0', '7', '3', '7', '0', '9', '5', '5', '1', '6', '1', '5']

/-- 255 in hexadecimal. -/
def LFF : Line := ['f', 'F']

/-- `2^64` in hexadecimal. -/
def LHEX65 : Line := ['1', '0', '0', '0', '0', '0', '0', '0', '0', '0', '0', '0', '0', '0', '0', '0', '0']

/-- The digits of a numeral, checked by computation. -/
theorem allDigits (b : Base) (l : Line) (h : (l.all fun c => (digitValue b c).isSome) = true) :
    ∀ c ∈ l, ∃ d, charValue c = some d ∧ d < b.radix := by
  intro c hc
  have hd := List.all_eq_true.1 h c hc
  unfold digitValue at hd
  cases hv : charValue c with
  | none => simp [hv] at hd
  | some d =>
    by_cases hr : d < b.radix
    · exact ⟨d, rfl, hr⟩
    · simp [hv, hr] at hd

theorem witness_ResetZeroesTheMachine : 0 < 4096 ∧ 4095 < 4096 := by decide

theorem witness_RunWithoutImageHaltsAtTwo : 4095 < 4096 := by decide

theorem witness_LoadPlacesTheImage_fits : (List.replicate 4096 0xFF#8).length ≤ 4096 := by
  rw [List.length_replicate]

theorem witness_LoadPlacesTheImage_short : 0 < [0x12#8].length ∧ [0x12#8].length ≤ 4095 ∧ 4095 < 4096 := by decide

theorem witness_LoadPlacesTheImage_refused : 4096 < (List.replicate 4097 0xFF#8).length := by
  rw [List.length_replicate]
  omega

theorem witness_RunSplitsIntoBatches_continues : ∃ t, runFor 1 (at200 0x6A01 State.reset) = (.budgetExhausted, t) :=
  ⟨_, Prod.ext (show (runFor 1 (at200 0x6A01 State.reset)).1 = .budgetExhausted by decide) rfl⟩

theorem witness_RunSplitsIntoBatches_ends :
    ∃ st t, runFor 1 (at200 0x0000 State.reset) = (st, t) ∧ st ≠ .budgetExhausted :=
  ⟨_, _, rfl, by decide⟩

theorem witness_UnboundedRunHasOneResult : ∃ t, RunsTo (at200 0x0000 State.reset) .halted t :=
  ⟨_, 1, Prod.ext (show (runFor 1 (at200 0x0000 State.reset)).1 = .halted by decide) rfl, by decide, by decide⟩

theorem witness_StepKeepsTheInvariant : callState.Inv ∧ ∃ t, step callState = .next t :=
  ⟨by decide, exists_next (by decide)⟩

theorem witness_FaultKeepsTheInvariant : retState.Inv ∧ step retState = .fault (.stackUnderflow 0x200) :=
  ⟨by decide, fault_of_faultOf (by decide)⟩

theorem witness_EncodeInvertsDecode : decode 0x8FF7#16 = .instr (.rsub 0xF#4 0xF#4) := by decide

theorem witness_NoWordMatchesTwoRows :
    Instr.row (.jp 0) ∈ opcodeTable ∧ (Instr.row (.jp 0)).matches 0x1FFF#16 = true :=
  ⟨by simp [opcodeTable, tableInstrs], by decide⟩

theorem witness_DecoderAgreesWithTheTable : Instr.row .ret ∈ opcodeTable ∧ (Instr.row .ret).matches 0x01EE#16 = true :=
  ⟨by simp [opcodeTable, tableInstrs], by decide⟩

theorem witness_UnrecognisedWordsAreTheListed :
    ([0x0001#16, 0x01EF#16, 0x8AB8#16, 0x8ABF#16, 0xDA04#16, 0xDA13#16, 0xEA9E#16, 0xFA1E#16].all fun w =>
      decode w == .unrecognised w) = true := by
  decide

theorem witness_EncodedInstructionRunsNext : (State.reset.setPc 4094).mem.wf = true ∧ (State.reset.setPc 4094).pc ≤ 4094 := by
  decide

theorem witness_StepRunsTheDecodedInstruction :
    (atEnd 0x6A01).fetches ∧ decode (atEnd 0x6A01).word = .instr (.ldk 0xA#4 0x01#8) :=
  ⟨⟨by decide, by decide⟩, by decide⟩

theorem witness_FetchReadsTheBigEndianWord : (atEnd 0x6A01).pc ≤ 4094 := by decide

theorem witness_UnrecognisedWordIsANoOp :
    (atEnd 0x00E0).fetches ∧ decode (atEnd 0x00E0).word = .unrecognised 0x00E0#16 :=
  ⟨⟨by decide, by decide⟩, by decide⟩

theorem witness_FetchPastTheEndFaults :
    (State.reset.setPc 4095).engine = .running ∧ 4094 < (State.reset.setPc 4095).pc := by decide

theorem witness_HaltedEngineStaysHalted : State.reset.halt.engine = .halted := by decide

theorem witness_OnlyTheZeroWordHalts_running :
    (at200 0x0000 State.reset).engine = .running ∧ ∃ t, step (at200 0x0000 State.reset) = .next t :=
  ⟨by decide, exists_next (by decide)⟩

theorem witness_OnlyTheZeroWordHalts_halted :
    State.reset.halt.engine = .halted ∧ ∃ t, step State.reset.halt = .next t :=
  ⟨by decide, exists_next (by decide)⟩

theorem witness_OnlyTheZeroWordHalts_fault : step (State.reset.setPc 4095) = .fault (.fetchFault 4095) :=
  fault_of_faultOf (by decide)

theorem witness_FaultsAreTheTabledOnes_overflow :
    faultOf (callWith (some 1) 0x400#12 (State.reset.push 0x100)) = some (.stackOverflow 0) := by decide

theorem witness_FaultsAreTheTabledOnes_room :
    faultOf (callWith (some 2) 0x400#12 (State.reset.push 0x100)) = none := by decide

theorem witness_FaultLeavesNoTrace : step (at200 0xE055 (State.reset.setIndex 0xFF9)) = .fault (.addressFault 0xFF9 8) :=
  fault_of_faultOf (by decide)

theorem witness_FaultLeavesNoTrace_input :
    step ((inputState [LBIG]).writeLine ['7']) = .fault (.inputParseFailure .dec LBIG) :=
  fault_of_faultOf (by decide)

theorem witness_RetryRecursUnlessInput_recurs :
    step retState = .fault (.stackUnderflow 0x200) ∧ ∀ b l, Fault.stackUnderflow 0x200 ≠ .inputParseFailure b l :=
  ⟨fault_of_faultOf (by decide), fun _ _ => by simp⟩

theorem witness_RetryRecursUnlessInput_input :
    step (inputState [LBIG, ['7']]) = .fault (.inputParseFailure .dec LBIG) ∧
      inputValue .dec ['7'] = some 7#64 :=
  ⟨fault_of_faultOf (by decide), by decide⟩

theorem witness_RetryRecursUnlessInput_again :
    step (inputState [LBIG, LBIG]) = .fault (.inputParseFailure .dec LBIG) ∧ inputValue .dec LBIG = none :=
  ⟨fault_of_faultOf (by decide), by decide⟩

theorem witness_PcMovesAsTabled_instruction :
    (inputState [['7']]).fetches ∧ (inputState [['7']]).waiting = false ∧ (∃ t, step (inputState [['7']]) = .next t) ∧
      decode (inputState [['7']]).word = .instr (.ind 0xA#4) :=
  ⟨⟨by decide, by decide⟩, by decide, exists_next (by decide), by decide⟩

theorem witness_PcMovesAsTabled_unrecognised :
    (atEnd 0x00E0).fetches ∧ (atEnd 0x00E0).waiting = false ∧ (∃ t, step (atEnd 0x00E0) = .next t) ∧
      decode (atEnd 0x00E0).word = .unrecognised 0x00E0#16 :=
  ⟨⟨by decide, by decide⟩, by decide, exists_next (by decide), by decide⟩

theorem witness_OnlyBlockInstructionsAccessMemory :
    (∀ x, Instr.ldk 0xA#4 0x01#8 ≠ .spill x) ∧ (∀ x, Instr.ldk 0xA#4 0x01#8 ≠ .loadb x) ∧
      ∃ t, exec (.ldk 0xA#4 0x01#8) State.reset = .next t :=
  ⟨fun _ => by simp, fun _ => by simp, exists_next (by decide)⟩

theorem witness_IndexPointerAccess :
    (∀ n, Instr.call 0x400#12 ≠ .seti n) ∧ (∀ x, Instr.call 0x400#12 ≠ .addi x) ∧ (∀ x, Instr.call 0x400#12 ≠ .spill x) ∧
      (∀ x, Instr.call 0x400#12 ≠ .loadb x) ∧ ∃ t, exec (.call 0x400#12) State.reset = .next t :=
  ⟨fun _ => by simp, fun _ => by simp, fun _ => by simp, fun _ => by simp, exists_next (by decide)⟩

theorem witness_OnlyCallAndRetTouchTheStack_others :
    (∀ n, Instr.jp 0x400#12 ≠ .call n) ∧ Instr.jp 0x400#12 ≠ .ret ∧ ∃ t, exec (.jp 0x400#12) callState = .next t :=
  ⟨fun _ => by simp, by simp, exists_next (by decide)⟩

theorem witness_OnlyCallAndRetTouchTheStack_call : ∃ t, exec (.call 0x400#12) callState = .next t :=
  exists_next (by decide)

theorem witness_OnlyCallAndRetTouchTheStack_ret : ∃ t, exec .ret callState = .next t :=
  exists_next (by decide)

theorem witness_OnlyFiveInstructionsSetTheFlag :
    (∃ t, exec (.add 0xA#4 0xB#4) (withAB M 1#64) = .next t) ∧ setsFlag (.add 0xA#4 0xB#4) = true ∧
      destination (.add 0xA#4 0xB#4) Reg.vf = false ∧ destination (.add 0xA#4 0xB#4) 0xB#4 = false :=
  ⟨exists_next (by decide), by decide, by decide, by decide⟩

theorem witness_OnlyFiveInstructionsSetTheFlag_none :
    (∃ t, exec (.addk 0xA#4 0xFF#8) (withA M) = .next t) ∧ setsFlag (.addk 0xA#4 0xFF#8) = false ∧
      destination (.addk 0xA#4 0xFF#8) Reg.vf = false :=
  ⟨exists_next (by decide), by decide, by decide⟩

theorem witness_RetReturnsPastTheCall : callState.stack = 0x100 :: [] ∧ retState.stack = [] := by decide

theorem witness_CallPushesItsOwnAddress : (none : Option Nat) ≠ some callState.stack.length := by decide

theorem witness_CallThenRetComesBack : ∃ t, exec (.call 0x400#12) callState = .next t ∧ t.stack = t.stack :=
  ⟨_, rfl, rfl⟩

theorem witness_AddSetsTheCarry : (0xA#4 : Reg) ≠ Reg.vf := by decide

theorem witness_SubSetsNoBorrow :
    1 = (if ((withAB 5#64 5#64).reg 0xB#4).toNat ≤ ((withAB 5#64 5#64).reg 0xA#4).toNat then 1 else 0) ∧ (0xA#4 : Reg) ≠ Reg.vf ∧
      5 = (if (0xA#4 : Reg) = Reg.vf then 1 else ((withAB 5#64 5#64).reg 0xA#4).toNat) := by
  decide

theorem witness_RsubWritesTheSecondOperand :
    0 = (if ((withAB 10#64 3#64).reg 0xA#4).toNat ≤ ((withAB 10#64 3#64).reg 0xB#4).toNat then 1 else 0) ∧
      (0xB#4 : Reg) ≠ Reg.vf ∧ 3 = (if (0xB#4 : Reg) = Reg.vf then 0 else ((withAB 10#64 3#64).reg 0xB#4).toNat) := by
  decide

theorem witness_ShrDividesAndReportsTheBit :
    (0x0#4).toNat = 0 ∧ (0xF#4).toNat ≠ 0 ∧ (0xA#4 : Reg) ≠ Reg.vf := by decide

theorem witness_ShlMultipliesAndReportsTheBit :
    (0x0#4).toNat = 0 ∧ (0x1#4).toNat ≠ 0 ∧ (0xA#4 : Reg) ≠ Reg.vf := by decide

theorem witness_FlagRegisterAsOperand :
    10#64 = (withFB 10#64 3#64).reg Reg.vf ∧ 3#64 = (withFB 10#64 3#64).reg 0xB#4 ∧ (0xB#4 : Reg) ≠ Reg.vf := by decide

theorem witness_RandMasksOneDraw : (0x0F#8).getLsbD 4 = false := by decide

theorem witness_SpillStoresTheBlock :
    (State.reset.setIndex 0xF80).index + blockBytes 0xF#4 ≤ 4096 ∧ (State.reset.setIndex 0xF80).mem.wf = true ∧
      (0xF#4 : Reg) ≤ 0xF#4 ∧ 7 < 8 := by
  decide

theorem witness_SpillStoresTheBlock_refused : 4096 < (State.reset.setIndex 0xF81).index + blockBytes 0xF#4 := by decide

theorem witness_LoadbLoadsTheBlock_refused : 4096 < (State.reset.setIndex 0xFF9).index + blockBytes 0x0#4 := by decide

theorem witness_LoadbLoadsTheBlock :
    (State.reset.setIndex 0xFF8).index + blockBytes 0x0#4 ≤ 4096 ∧ (0x0#4 : Reg) < 0x1#4 ∧ (0x0#4 : Reg) ≤ 0x0#4 ∧ 7 < 8 := by
  decide

theorem witness_BlockPastTheEndFaults : 4096 < (State.reset.setIndex 0xFF9).index + 8 * ((0x0#4 : Reg).toNat + 1) := by decide

theorem witness_SpillThenLoadbRestores :
    blockStart.mem.wf = true ∧ ∃ t, exec (.spill 0x1#4) blockStart = .next t ∧ t.index = t.index :=
  ⟨by decide, _, rfl, rfl⟩

theorem witness_SpillIsSeenByTheNextFetch :
    (blockStart.setPc 0x30C).mem.wf = true ∧ (blockStart.setPc 0x30C).index + blockBytes 0x1#4 ≤ 4096 ∧
      (blockStart.setPc 0x30C).pc + 2 = (blockStart.setPc 0x30C).index + 14 ∧ 14 + 2 ≤ blockBytes 0x1#4 := by
  decide

theorem witness_OutdPrintsTheShortestDecimal : plainNumeral .dec 0#64 = ['0'] ∧ ['0'].head? = some '0' := by decide

theorem witness_InputStoresTheParsedValue :
    (inputState [LFF]).consoleIn = LFF :: [] ∧ inputValue .hex LFF = some 0xFF#64 ∧
      inputValue .dec ['9'] = some 9#64 ∧ inputValue .bin ['1'] = some 1#64 ∧ inputValue .oct ['7'] = some 7#64 := by
  decide

theorem witness_InputStoresTheParsedValue_fails :
    inputValue .hex LHEX65 = none ∧ inputValue .dec LBIG = none ∧ inputValue .bin ['2'] = none ∧
      inputValue .oct ['8'] = none := by
  decide

theorem witness_InputWaitsForAnAnswer :
    (inputState []).consoleIn = [] ∧ (inputState []).fetches ∧ decode (inputState []).word = .instr (.ind 0xA#4) :=
  ⟨by decide, ⟨by decide, by decide⟩, by decide⟩

theorem witness_PlainNumeralsParse_fits : IsNumeral .dec LMAX ∧ numeralValue .dec LMAX < 2 ^ 64 :=
  ⟨⟨by decide, allDigits _ _ (by decide)⟩, by decide⟩

theorem witness_PlainNumeralsParse_tooLarge : IsNumeral .dec LBIG ∧ 2 ^ 64 ≤ numeralValue .dec LBIG :=
  ⟨⟨by decide, allDigits _ _ (by decide)⟩, by decide⟩

theorem witness_ForeignDigitFails : ∃ c ∈ ['1', '2'], 48 ≤ c.toNat ∧ c.toNat ≤ 57 ∧ Base.bin.radix ≤ c.toNat - 48 :=
  ⟨'2', by decide, by decide, by decide, by decide⟩

theorem witness_EveryCompletedCycleCountsOnce :
    (at200 0x6A01 State.reset).engine = .running ∧ (at200 0x6A01 State.reset).waiting = false ∧
      ∃ t, step (at200 0x6A01 State.reset) = .next t :=
  ⟨by decide, by decide, exists_next (by decide)⟩

end Sys2Proof.Tests
end

/-! SUPPORT. What one instruction can do to the engine state, the index pointer, the call stack and memory, and how it
moves the pc and the registers (spec/10_state.md R22 to R31). -/

namespace Sys2Proof.Machine

/-! ### Results -/

theorem mapNext_congr {f g : State → State} {r : Result} (h : ∀ t, r = .next t → f t = g t) :
    mapNext f r = mapNext g r := by
  cases r with
  | next t => exact congrArg _ (h t rfl)
  | fault _ => rfl
  | refused _ => rfl

theorem next_inj {s t : State} (h : (.next s : Result) = .next t) : t = s :=
  (Host.Outcome.next.inj h).symm

theorem pc_of_complete {s u t : State} (h : complete u = .next t) (hu : u.pc = s.pc) : t.pc = s.pc + 2 := by
  rw [next_inj h, State.advance_pc, hu]

theorem pc_of_skipIf {c : Bool} {s t : State} (h : skipIf c s = .next t) :
    t.pc = if c then s.pc + 4 else s.pc + 2 := by
  rw [skipIf_eq] at h
  rw [next_inj h, State.setPc_pc]

theorem reg_of_complete {s u t : State} {r : Reg} (h : complete u = .next t) (hu : u.reg r = s.reg r) :
    t.reg r = s.reg r := by
  rw [next_inj h, State.advance_reg, hu]

theorem reg_of_skipIf {c : Bool} {s t : State} (r : Reg) (h : skipIf c s = .next t) : t.reg r = s.reg r := by
  rw [skipIf_eq] at h
  rw [next_inj h, State.setPc_reg]

/-! ### What an instruction that can fault leaves when it completes -/

theorem exec_ret_next {s t : State} (h : exec .ret s = .next t) :
    ∃ top rest, s.stack = top :: rest ∧ t = (s.dropTop.setPc top).advance := by
  have hr : execRet s = .next t := h
  unfold execRet at hr
  cases hs : s.stack with
  | nil =>
    rw [hs] at hr
    cases hr
  | cons top rest =>
    rw [hs] at hr
    exact ⟨top, rest, rfl, next_inj hr⟩

theorem exec_spill_next {x : Reg} {s t : State} (h : exec (.spill x) s = .next t) :
    s.index + blockBytes x ≤ 4096 ∧ t = (s.setMem (storeRegs s (blockCount x))).advance := by
  obtain ⟨hle, hx⟩ | ⟨-, hx⟩ := execSpill_cases x s
  · exact ⟨hle, next_inj (hx.symm.trans h)⟩
  · cases hx.symm.trans h

theorem exec_loadb_next {x : Reg} {s t : State} (h : exec (.loadb x) s = .next t) :
    s.index + blockBytes x ≤ 4096 ∧ t = (loadRegs s (blockCount x)).advance := by
  obtain ⟨hle, hx⟩ | ⟨-, hx⟩ := execLoadb_cases x s
  · exact ⟨hle, next_inj (hx.symm.trans h)⟩
  · cases hx.symm.trans h

/-- An input instruction without a fault either still waits, its state unchanged, or has stored a value and taken the
string (R189, R239). -/
theorem input_next {b : Base} {x : Reg} {s t : State} (h : input b x s = .next t) :
    (s.consoleIn = [] ∧ t = s) ∨ ∃ v, t = ((s.takeLine b x).setReg x v).advance := by
  obtain ⟨hnil, hw⟩ | ⟨_, _, v, -, -, hw⟩ | ⟨_, _, -, -, hw⟩ := input_cases b x s
  · exact .inl ⟨hnil, next_inj (hw.symm.trans h)⟩
  · exact .inr ⟨v, next_inj (hw.symm.trans h)⟩
  · cases hw.symm.trans h

/-! ### The seven instructions that touch the engine state, `I`, the call stack or memory, and the other 26 -/

/-- Every instruction but HALT, RET, CALL, SETI, ADDI, SPILL and LOADB: the effect is on the registers, the pc and the
collaborators alone. -/
def isOrdinary (i : Instr) : Bool :=
  match i with
  | .halt | .ret | .call _ | .seti _ | .addi _ | .spill _ | .loadb _ => false
  | _ => true

/-! ### An ordinary instruction neither sees nor changes that part of the state -/

/-- `s` with the index pointer, call stack, engine state and memory of `u`. -/
def State.withControlOf (s u : State) : State :=
  { s with index := u.index, stack := u.stack, engine := u.engine, mem := u.mem }

theorem skipIf_withControlOf (c : Bool) (s u : State) :
    skipIf c (s.withControlOf u) = mapNext (·.withControlOf u) (skipIf c s) := by
  cases c <;> rfl

theorem takeLine_withControlOf (b : Base) (x : Reg) (s u : State) :
    (s.withControlOf u).takeLine b x = (s.takeLine b x).withControlOf u := by
  cases hc : s.consoleIn <;> simp [State.takeLine, State.withControlOf, hc]

theorem input_withControlOf (b : Base) (x : Reg) (s u : State) :
    input b x (s.withControlOf u) = mapNext (·.withControlOf u) (input b x s) := by
  have hin : (s.withControlOf u).consoleIn = s.consoleIn := rfl
  unfold input
  rw [hin, takeLine_withControlOf]
  cases s.consoleIn with
  | nil => rfl
  | cons l rest =>
    dsimp only
    cases inputValue b l <;> rfl

theorem shiftRightBy_withControlOf (x : Reg) (a : Nat) (s u : State) :
    shiftRightBy x a (s.withControlOf u) = (shiftRightBy x a s).withControlOf u := by
  unfold shiftRightBy
  split <;> rfl

theorem shiftLeftBy_withControlOf (x : Reg) (a : Nat) (s u : State) :
    shiftLeftBy x a (s.withControlOf u) = (shiftLeftBy x a s).withControlOf u := by
  unfold shiftLeftBy
  split <;> rfl

/-- Noninterference: an ordinary instruction does the same under any index pointer, call stack, engine state and
memory, and carries them through. -/
theorem exec_withControlOf {i : Instr} (hi : isOrdinary i = true) (s u : State) :
    exec i (s.withControlOf u) = mapNext (·.withControlOf u) (exec i s) := by
  cases i with
  | halt | ret | call | seti | addi | spill | loadb => cases hi
  | seqk | snek | seq | sne => exact skipIf_withControlOf _ s u
  | shr x a => exact congrArg complete (shiftRightBy_withControlOf x _ s u)
  | shl x a => exact congrArg complete (shiftLeftBy_withControlOf x _ s u)
  | inx | ind | inb | ino => exact input_withControlOf _ _ s u
  | _ => rfl

/-- The frame of an ordinary instruction: the noninterference law with the state's own control and memory. -/
theorem ordinary_frame {i : Instr} (hi : isOrdinary i = true) {s t : State} (h : exec i s = .next t) :
    ControlKept s t ∧ t.mem = s.mem := by
  have hs : exec i s = mapNext (·.withControlOf s) (exec i s) := exec_withControlOf hi s s
  rw [h] at hs
  rw [Host.Outcome.next.inj hs]
  exact ⟨⟨rfl, rfl, rfl⟩, rfl⟩

/-- Everything a completed instruction can have done to the engine state, `I`, the call stack and memory: nothing when
it is ordinary, and one effect for each of the seven others. -/
inductive ControlEffect (s : State) : Instr → State → Prop
  | ordinary {i : Instr} {t : State} (kept : ControlKept s t) (mem : t.mem = s.mem)
      (hi : isOrdinary i = true) : ControlEffect s i t
  | halt : ControlEffect s .halt s.halt.advance
  | ret (top : Nat) (rest : List Nat) (hs : s.stack = top :: rest) :
      ControlEffect s .ret (s.dropTop.setPc top).advance
  | call (n : BitVec 12) : ControlEffect s (.call n) ((s.push s.pc).setPc n.toNat)
  | seti (n : BitVec 12) : ControlEffect s (.seti n) (s.setIndex n.toNat).advance
  | addi (x : Reg) : ControlEffect s (.addi x) (s.setIndex (s.index + (s.reg x).toNat)).advance
  | spill (x : Reg) (hle : s.index + blockBytes x ≤ 4096) :
      ControlEffect s (.spill x) (s.setMem (storeRegs s (blockCount x))).advance
  | loadb (x : Reg) (hle : s.index + blockBytes x ≤ 4096) :
      ControlEffect s (.loadb x) (loadRegs s (blockCount x)).advance

theorem exec_controlEffect {i : Instr} {s t : State} (h : exec i s = .next t) : ControlEffect s i t := by
  cases i with
  | halt => exact next_inj h ▸ .halt
  | ret =>
    obtain ⟨top, rest, hs, rfl⟩ := exec_ret_next h
    exact .ret top rest hs
  | call n => exact next_inj h ▸ .call n
  | seti n => exact next_inj h ▸ .seti n
  | addi x => exact next_inj h ▸ .addi x
  | spill x =>
    obtain ⟨hle, rfl⟩ := exec_spill_next h
    exact .spill x hle
  | loadb x =>
    obtain ⟨hle, rfl⟩ := exec_loadb_next h
    exact .loadb x hle
  | _ =>
    obtain ⟨kept, mem⟩ := ordinary_frame rfl h
    exact .ordinary kept mem rfl

/-! ### The engine state (R31) -/

/-- No instruction but HALT touches the engine state. -/
theorem exec_engine {i : Instr} {s t : State} (h : exec i s = .next t) :
    t.engine = if i = .halt then .halted else s.engine := by
  cases exec_controlEffect h with
  | ordinary kept _ hi =>
    obtain ⟨-, -, he⟩ := kept
    have hne : i ≠ .halt := by rintro rfl; cases hi
    rw [if_neg hne, he]
  | _ => simp [loadRegs_frame]

theorem decodeFamily_ne_halt (w : Code) : decodeFamily w ≠ .instr .halt := by
  have alu : decodeAlu w ≠ .instr .halt := by unfold decodeAlu; split <;> simp
  have output : decodeOutput w ≠ .instr .halt := by unfold decodeOutput; split <;> simp
  have index : decodeIndex w ≠ .instr .halt := by unfold decodeIndex; split <;> simp
  have input : decodeInput w ≠ .instr .halt := by unfold decodeInput; split <;> simp
  unfold decodeFamily
  split <;> simp [alu, output, index, input]

/-- Of the 65,536 words only the all-zero one is HALT (R74). -/
theorem decode_eq_halt_iff (w : Code) : decode w = .instr .halt ↔ w = 0x0000#16 := by
  unfold decode
  by_cases h0 : w = 0x0000#16
  · simp [h0]
  · by_cases h1 : w = 0x01EE#16
    · simp [h1]
    · simp [h0, h1, decodeFamily_ne_halt]

theorem afterFault_engine (s : State) (f : Fault) : (s.afterFault f).engine = s.engine := by
  obtain h | ⟨b, r, h⟩ := afterFault_cases s f
  · rw [h]
  · rw [h, State.takeLine_engine]

theorem step_halted {s : State} (h : s.engine = .halted) : step s = .next s := by
  unfold step
  rw [h]
  rfl

/-- Only a running engine raises a fault. -/
theorem running_of_step_fault {s : State} {f : Fault} (h : step s = .fault f) : s.engine = .running := by
  cases he : s.engine with
  | running => rfl
  | halted => cases (step_halted he).symm.trans h

theorem step_halts_iff {s t : State} (hs : s.engine = .running) (h : step s = .next t) :
    t.engine = .halted ↔ s.word = 0x0000#16 := by
  rw [← decode_eq_halt_iff]
  obtain ⟨hh, -⟩ | ⟨-, -, hf⟩ | ⟨i, -, -, hd, hx⟩ | ⟨-, -, hd, hx⟩ := step_cases s
  · cases hs.symm.trans hh
  · cases hf.symm.trans h
  · rw [exec_engine (hx.symm.trans h), hd, hs]
    by_cases hi : i = .halt <;> simp [hi]
  · rw [next_inj (hx.symm.trans h), hd, State.advance_engine, hs]
    simp

/-- Settles O22: HALT is the only instruction that touches the engine state and 0x0000 the only word that is HALT. -/
theorem onlyTheZeroWordHalts : Obligations.OnlyTheZeroWordHalts := by
  refine ⟨rfl, fun s t => step_halts_iff, ?_, ?_, fun _ => rfl⟩
  · intro s t hs h
    rw [next_inj ((step_halted hs).symm.trans h), hs]
  · intro s f h
    rw [afterFault_engine, running_of_step_fault h]

/-! ### The index pointer (R29) -/

theorem exec_setIndex_of_ordinary {i : Instr} (hi : isOrdinary i = true) (s : State) (n : Nat) :
    exec i (s.setIndex n) = mapNext (·.setIndex n) (exec i s) := by
  refine (exec_withControlOf hi s (s.setIndex n)).trans (mapNext_congr fun t ht => ?_)
  obtain ⟨⟨-, hst, he⟩, hm⟩ := ordinary_frame hi ht
  simp [State.withControlOf, State.setIndex, hst, he, hm]

theorem execRet_setIndex (s : State) (n : Nat) : execRet (s.setIndex n) = mapNext (·.setIndex n) (execRet s) := by
  unfold execRet
  rw [State.setIndex_stack]
  cases s.stack <;> rfl

/-- Settles O29: by the frame and the noninterference law of the ordinary instructions, and one by one for the seven
others. -/
theorem indexPointerAccess : Obligations.IndexPointerAccess := by
  refine ⟨rfl, ?_, ?_, fun _ _ _ => rfl⟩
  · intro i s t hseti haddi h
    cases exec_controlEffect h with
    | ordinary kept =>
      obtain ⟨hindex, -⟩ := kept
      exact hindex
    | seti n => exact absurd rfl (hseti n)
    | addi x => exact absurd rfl (haddi x)
    | _ => simp [loadRegs_frame]
  · intro i s n hseti haddi hspill hloadb
    cases i with
    | halt | call => rfl
    | ret => exact execRet_setIndex s n
    | seti k => exact absurd rfl (hseti k)
    | addi x => exact absurd rfl (haddi x)
    | spill x => exact absurd rfl (hspill x)
    | loadb x => exact absurd rfl (hloadb x)
    | _ => exact exec_setIndex_of_ordinary rfl s n

/-! ### The call stack (R30) -/

/-- `s` with another call stack. -/
def State.setStack (s : State) (st : List Nat) : State := { s with stack := st }

@[simp] theorem State.setStack_index (s : State) (st : List Nat) : (s.setStack st).index = s.index := rfl

theorem exec_setStack_of_ordinary {i : Instr} (hi : isOrdinary i = true) (s : State) (st : List Nat) :
    exec i (s.setStack st) = mapNext (·.setStack st) (exec i s) := by
  refine (exec_withControlOf hi s (s.setStack st)).trans (mapNext_congr fun t ht => ?_)
  obtain ⟨⟨hx, -, he⟩, hm⟩ := ordinary_frame hi ht
  simp [State.withControlOf, State.setStack, hx, he, hm]

theorem storeRegs_setStack (s : State) (st : List Nat) (n : Nat) : storeRegs (s.setStack st) n = storeRegs s n := by
  induction n with
  | zero => rfl
  | succ n ih => rw [storeRegs, storeRegs, ih]; rfl

theorem loadRegs_setStack (s : State) (st : List Nat) (n : Nat) :
    loadRegs (s.setStack st) n = (loadRegs s n).setStack st := by
  induction n with
  | zero => rfl
  | succ n ih => rw [loadRegs, loadRegs, ih]; rfl

theorem execSpill_setStack (x : Reg) (s : State) (st : List Nat) :
    execSpill x (s.setStack st) = mapNext (·.setStack st) (execSpill x s) := by
  unfold execSpill
  rw [storeRegs_setStack, State.setStack_index]
  split <;> rfl

theorem execLoadb_setStack (x : Reg) (s : State) (st : List Nat) :
    execLoadb x (s.setStack st) = mapNext (·.setStack st) (execLoadb x s) := by
  unfold execLoadb
  rw [loadRegs_setStack, State.setStack_index]
  split <;> rfl

theorem exec_setStack {i : Instr} (hcall : ∀ n, i ≠ .call n) (hret : i ≠ .ret) (s : State) (st : List Nat) :
    exec i (s.setStack st) = mapNext (·.setStack st) (exec i s) := by
  cases i with
  | halt | seti | addi => rfl
  | ret => exact absurd rfl hret
  | call n => exact absurd rfl (hcall n)
  | spill x => exact execSpill_setStack x s st
  | loadb x => exact execLoadb_setStack x s st
  | _ => exact exec_setStack_of_ordinary rfl s st

/-- Settles O30: by the same two laws, the push of CALL and the pop of RET. -/
theorem onlyCallAndRetTouchTheStack : Obligations.OnlyCallAndRetTouchTheStack := by
  refine ⟨?_, fun _ s st hcall hret => exec_setStack hcall hret s st, ?_, ?_⟩
  · intro i s t hcall hret h
    cases exec_controlEffect h with
    | ordinary kept =>
      obtain ⟨-, hstack, -⟩ := kept
      exact hstack
    | ret => exact absurd rfl hret
    | call n => exact absurd rfl (hcall n)
    | _ => simp [loadRegs_frame]
  · intro n s t h
    rw [next_inj h]
    rfl
  · intro s t h
    obtain ⟨top, rest, hs, rfl⟩ := exec_ret_next h
    exact ⟨top, by simp [hs]⟩

/-! ### The pc (R27) -/

/-- The four input instructions. -/
def readsConsole (i : Instr) : Bool :=
  match i with
  | .inx _ | .ind _ | .inb _ | .ino _ => true
  | _ => false

/-- With an input instruction at `pc` the cycle waits exactly while the console has no answer (R239). -/
theorem waiting_eq {s : State} (hf : s.fetches) {i : Instr} (hd : decode s.word = .instr i) :
    s.waiting = (readsConsole i && s.consoleIn.isEmpty) := by
  obtain ⟨hrun, hpc⟩ := hf
  unfold State.waiting
  rw [hrun, decode_fetchBytes hpc, hd]
  cases s.consoleIn <;> cases i <;> rfl

theorem pc_of_input {b : Base} {x : Reg} {s t : State} (h : input b x s = .next t) (hc : s.consoleIn ≠ []) :
    t.pc = s.pc + 2 := by
  obtain ⟨hnil, -⟩ | ⟨v, rfl⟩ := input_next h
  · exact absurd hnil hc
  · simp

/-- Where each instruction that completes leaves the pc; an input instruction completes when a string is there. -/
theorem exec_pc {i : Instr} {s t : State} (h : exec i s = .next t)
    (hc : readsConsole i = true → s.consoleIn ≠ []) : PcAfter i s t.pc := by
  cases i with
  | ret =>
    obtain ⟨top, rest, hs, rfl⟩ := exec_ret_next h
    exact ⟨top, rest, hs, rfl⟩
  | jp | call | jpv0 => exact congrArg State.pc (next_inj h)
  | seqk | snek =>
    have hp := pc_of_skipIf h
    simpa [PcAfter, eq_zextNN_iff] using hp
  | seq | sne =>
    have hp := pc_of_skipIf h
    simpa [PcAfter] using hp
  | shr x a =>
    obtain ⟨hp, -⟩ := shiftRightBy_frame x (shiftAmount a) s
    exact pc_of_complete h hp
  | shl x a =>
    obtain ⟨hp, -⟩ := shiftLeftBy_frame x (shiftAmount a) s
    exact pc_of_complete h hp
  | spill x =>
    obtain ⟨-, rfl⟩ := exec_spill_next h
    rfl
  | loadb x =>
    obtain ⟨-, rfl⟩ := exec_loadb_next h
    simp [PcAfter, loadRegs_frame]
  | inx | ind | inb | ino => exact pc_of_input h (hc rfl)
  | _ => exact pc_of_complete h rfl

/-- Settles O27: a completed cycle is the decoded instruction's, whose pc `exec_pc` gives, or the no-op's. -/
theorem pcMovesAsTabled : Obligations.PcMovesAsTabled := by
  intro s t hf hw h
  obtain ⟨hrun, hle⟩ := hf
  obtain ⟨hh, -⟩ | ⟨-, hgt, -⟩ | ⟨i, -, -, hd, hx⟩ | ⟨-, -, hd, hx⟩ := step_cases s
  · cases hrun.symm.trans hh
  · omega
  · constructor
    · intro j hj
      cases hd.symm.trans hj
      refine exec_pc (hx.symm.trans h) fun hi hnil => ?_
      simp [waiting_eq ⟨hrun, hle⟩ hd, hi, hnil] at hw
    · intro w hu
      cases hd.symm.trans hu
  · constructor
    · intro j hj
      cases hd.symm.trans hj
    · intro _ _
      rw [next_inj (hx.symm.trans h), State.advance_pc]

/-! ### The registers and the flag (R22) -/

theorem flagWord_eq_zero_or_one (b : Bool) : flagWord b = 0#64 ∨ flagWord b = 1#64 := by
  cases b
  · exact .inl rfl
  · exact .inr rfl

/-- After `u` only the register `x` and the flag may differ from `s`. -/
def WritesFlagBeside (x : Reg) (s u : State) : Prop :=
  ∃ b : Bool, ∀ r : Reg, r ≠ x → u.reg r = if r = Reg.vf then flagWord b else s.reg r

theorem setFlag_setReg_writesFlagBeside (x : Reg) (s : State) (b : Bool) (v : Word) :
    WritesFlagBeside x s ((s.setFlag b).setReg x v) :=
  ⟨b, fun r hr => by rw [State.reg_setReg_other _ v hr, State.reg_setFlag]⟩

theorem shiftRightBy_writesFlagBeside (x : Reg) (a : Nat) (s : State) :
    WritesFlagBeside x s (shiftRightBy x a s) := by
  unfold shiftRightBy
  split
  · exact ⟨false, fun r _ => State.reg_setFlag s false r⟩
  · exact setFlag_setReg_writesFlagBeside x s _ _

theorem shiftLeftBy_writesFlagBeside (x : Reg) (a : Nat) (s : State) :
    WritesFlagBeside x s (shiftLeftBy x a s) := by
  unfold shiftLeftBy
  split
  · exact ⟨false, fun r _ => State.reg_setFlag s false r⟩
  · exact setFlag_setReg_writesFlagBeside x s _ _

theorem WritesFlagBeside.reg_of_complete {x : Reg} {s u t : State} (hw : WritesFlagBeside x s u)
    (h : complete u = .next t) :
    ∃ b : Bool, ∀ r : Reg, decide (r = x) = false → t.reg r = if r = Reg.vf then flagWord b else s.reg r := by
  obtain ⟨b, hb⟩ := hw
  exact ⟨b, fun r hr => by rw [next_inj h, State.advance_reg, hb r (of_decide_eq_false hr)]⟩

/-- ADD, SUB, SHR, RSUB and SHL write 0 or 1 to the flag and nothing else beside their destination. -/
theorem exec_reg_of_setsFlag {i : Instr} (hi : setsFlag i = true) {s t : State} (h : exec i s = .next t) :
    ∃ b : Bool, ∀ r : Reg, destination i r = false → t.reg r = if r = Reg.vf then flagWord b else s.reg r := by
  cases i with
  | add x y => exact (setFlag_setReg_writesFlagBeside x s _ _).reg_of_complete h
  | sub x y => exact (setFlag_setReg_writesFlagBeside x s _ _).reg_of_complete h
  | rsub x y => exact (setFlag_setReg_writesFlagBeside y s _ _).reg_of_complete h
  | shr x a => exact (shiftRightBy_writesFlagBeside x _ s).reg_of_complete h
  | shl x a => exact (shiftLeftBy_writesFlagBeside x _ s).reg_of_complete h
  | _ => cases hi

theorem reg_of_input {b : Base} {x r : Reg} {s t : State} (h : input b x s = .next t) (hr : r ≠ x) :
    t.reg r = s.reg r := by
  obtain ⟨-, rfl⟩ | ⟨v, rfl⟩ := input_next h
  · rfl
  · rw [State.advance_reg, State.reg_setReg_other _ v hr, State.takeLine_reg]

/-- The other 28 instructions write no register but their destination. -/
theorem exec_reg_of_not_setsFlag {i : Instr} (hi : setsFlag i = false) {s t : State} (h : exec i s = .next t)
    {r : Reg} (hr : destination i r = false) : t.reg r = s.reg r := by
  cases i with
  | add | sub | rsub | shr | shl => cases hi
  | ldk | addk | mov | or | and | xor =>
    exact reg_of_complete h (State.reg_setReg_other s _ (of_decide_eq_false hr))
  | rand => exact reg_of_complete h (State.reg_setReg_other s.drawn _ (of_decide_eq_false hr))
  | inx | ind | inb | ino => exact reg_of_input h (of_decide_eq_false hr)
  | seqk | snek | seq | sne => exact reg_of_skipIf r h
  | jp | call | jpv0 => rw [next_inj h]; rfl
  | ret =>
    obtain ⟨_, _, -, rfl⟩ := exec_ret_next h
    rfl
  | spill x =>
    obtain ⟨-, rfl⟩ := exec_spill_next h
    rfl
  | loadb x =>
    have hgt : ¬ r.toNat < blockCount x := by
      have := of_decide_eq_false hr
      unfold blockCount
      omega
    rw [(exec_loadb_next h).2, State.advance_reg, reg_loadRegs _ _ (blockCount_le x), if_neg hgt]
  | _ => exact reg_of_complete h rfl

/-- Settles O31: the five flag writers and the 28 others. -/
theorem onlyFiveInstructionsSetTheFlag : Obligations.OnlyFiveInstructionsSetTheFlag := by
  intro i s t h
  cases hi : setsFlag i with
  | false => exact ⟨fun r hr _ => exec_reg_of_not_setsFlag hi h hr, nofun⟩
  | true =>
    obtain ⟨b, hb⟩ := exec_reg_of_setsFlag hi h
    constructor
    · rintro r hr (hne | hno)
      · rw [hb r hr, if_neg hne]
      · cases hno
    · intro _ hvf
      rw [hb Reg.vf hvf, if_pos rfl]
      exact flagWord_eq_zero_or_one b

end Sys2Proof.Machine

/-! SUPPORT. Memory as the instructions reach it (spec/20_memory.md): the fetch runs what memory holds, and of the
instructions only SPILL writes a byte and only LOADB reads one. -/

namespace Sys2Proof

/-! ### The decoder on encoded instructions (R74, R75) -/

/-- A word of any family but 0x0 is neither exact word, so the dispatch is by family (R74). -/
theorem decode_of_fieldT_ne_zero {w : Code} (h : fieldT w ≠ 0x0#4) : decode w = decodeFamily w := by
  have hhalt : w ≠ 0x0000#16 := by rintro rfl; exact h (by decide)
  have hret : w ≠ 0x01EE#16 := by rintro rfl; exact h (by decide)
  rw [decode, if_neg hhalt, if_neg hret]

theorem decode_packA {t : BitVec 4} (ht : t ≠ 0x0#4) (nnn : BitVec 12) :
    decode (packA t nnn) = decodeFamily (packA t nnn) :=
  decode_of_fieldT_ne_zero (by rwa [fieldT_packA])

theorem decode_packK {t : BitVec 4} (ht : t ≠ 0x0#4) (x : Reg) (nn : BitVec 8) :
    decode (packK t x nn) = decodeFamily (packK t x nn) :=
  decode_of_fieldT_ne_zero (by rwa [fieldT_packK])

theorem decode_packR {t : BitVec 4} (ht : t ≠ 0x0#4) (x y : Reg) (n : BitVec 4) :
    decode (packR t x y n) = decodeFamily (packR t x y n) :=
  decode_of_fieldT_ne_zero (by rwa [fieldT_packR])

/-- The two exact words, then each family by the format of its words (R72). -/
theorem decode_encode (i : Instr) : decode (encode i) = .instr i := by
  cases i with
  | halt | ret => rfl
  | jp | call | seti | jpv0 => simp [encode, decode_packA, decodeFamily]
  | seqk | snek | ldk | addk | rand => simp [encode, decode_packK, decodeFamily]
  | outx | outd | outb | outo => simp [encode, decode_packK, decodeFamily, decodeOutput]
  | addi | spill | loadb => simp [encode, decode_packK, decodeFamily, decodeIndex]
  | inx | ind | inb | ino => simp [encode, decode_packK, decodeFamily, decodeInput]
  | seq | sne => simp [encode, decode_packR, decodeFamily]
  | mov | or | and | xor | add | sub | shr | rsub | shl =>
    simp [encode, decode_packR, decodeFamily, decodeAlu]

end Sys2Proof

namespace Sys2Proof.Machine

/-! ### A word stored at `pc` (R52, R70, R101) -/

theorem withFetchWord_eq {s : State} (h : s.pc ≤ 4094) (w : Code) :
    s.withFetchWord 16 w.toNat = { s with engine := .running, mem := s.mem.writeBytes s.pc (codeBytes w) } := by
  have hr : inRange s.pc 2 = true := (inRange_iff _ _).2 (by omega)
  have hw : BitVec.ofNat 16 (w.toNat % 2 ^ 16) = w := by
    rw [Nat.mod_eq_of_lt w.isLt, BitVec.ofNat_toNat, BitVec.setWidth_eq]
  rw [State.withFetchWord, if_pos hr, hw]

/-- In canonical memory the word stored at a fetchable `pc` is the two bytes the next cycle fetches. -/
theorem withFetchWord_fetchBytes {s : State} (hm : s.mem.wf = true) (h : s.pc ≤ 4094) (w : Code) :
    (s.withFetchWord 16 w.toNat).fetchBytes = codeBytes w := by
  have hread : ∀ k (hk : k < 2), (s.mem.writeBytes s.pc (codeBytes w)).read (s.pc + k) = (codeBytes w)[k] :=
    fun k hk => Memory.read_writeBytes_inside hm (by simp only [codeBytes, List.length]; omega) hk
  have hpc : (s.withFetchWord 16 w.toNat).pc ≤ 4094 := by
    rw [withFetchWord_eq h]
    exact h
  rw [fetchBytes_of_le hpc, withFetchWord_eq h]
  exact congrArg₂ (fun a b => [a, b]) (hread 0 (by omega)) (hread 1 (by omega))

theorem step_of_decodeBytes {s : State} {i : Instr} (hrun : s.engine = .running)
    (hd : decodeBytes s.fetchBytes = .instr i) : step s = exec i s := by
  unfold step
  rw [hrun, hd]

/-- Settles O16: the bytes fetched are the encoding's, and decoding inverts encoding. -/
theorem encodedInstructionRunsNext : Obligations.EncodedInstructionRunsNext := by
  intro s i hm hpc
  apply step_of_decodeBytes
  · rw [withFetchWord_eq hpc]
  · rw [withFetchWord_fetchBytes hm hpc]
    exact (decodeBytes_codeBytes (encode i) []).trans (decode_encode i)

/-! ### Which instructions write and read memory (R51) -/

/-- The frame of memory: only SPILL writes it. -/
theorem exec_mem {i : Instr} (hspill : ∀ x, i ≠ .spill x) {s t : State} (h : exec i s = .next t) :
    t.mem = s.mem := by
  cases exec_controlEffect h with
  | ordinary _ mem => exact mem
  | spill x => exact absurd rfl (hspill x)
  | _ => simp [loadRegs_frame]

theorem exec_setMem_of_ordinary {i : Instr} (hi : isOrdinary i = true) (s : State) (m : Memory) :
    exec i (s.setMem m) = mapNext (·.setMem m) (exec i s) := by
  refine (exec_withControlOf hi s (s.setMem m)).trans (mapNext_congr fun t ht => ?_)
  obtain ⟨⟨hx, hst, he⟩, -⟩ := ordinary_frame hi ht
  simp [State.withControlOf, State.setMem, hx, hst, he]

theorem execRet_setMem (s : State) (m : Memory) : execRet (s.setMem m) = mapNext (·.setMem m) (execRet s) := by
  unfold execRet
  rw [State.setMem_stack]
  cases s.stack <;> rfl

/-- Noninterference: every instruction but SPILL and LOADB does the same whatever memory holds. -/
theorem exec_setMem {i : Instr} (hspill : ∀ x, i ≠ .spill x) (hloadb : ∀ x, i ≠ .loadb x) (s : State)
    (m : Memory) : exec i (s.setMem m) = mapNext (·.setMem m) (exec i s) := by
  cases i with
  | halt | call | seti | addi => rfl
  | ret => exact execRet_setMem s m
  | spill x => exact absurd rfl (hspill x)
  | loadb x => exact absurd rfl (hloadb x)
  | _ => exact exec_setMem_of_ordinary rfl s m

/-- SPILL's range test and its effect outside memory do not depend on what memory held. -/
theorem execSpill_setMem (x : Reg) (s : State) (m : Memory) :
    mapNext (·.setMem m) (execSpill x (s.setMem m)) = mapNext (·.setMem m) (execSpill x s) := by
  unfold execSpill
  rw [State.setMem_index]
  split <;> rfl

/-- Settles O28: the frame and the noninterference law of memory, and SPILL's own. -/
theorem onlyBlockInstructionsAccessMemory : Obligations.OnlyBlockInstructionsAccessMemory := by
  refine ⟨fun i s t hspill h a => ?_, fun i s m hspill hloadb => exec_setMem hspill hloadb s m, execSpill_setMem⟩
  rw [exec_mem hspill h]

/-! ### The block SPILL stores, byte by byte (R52, R53, R64, R172) -/

theorem read_storeRegs_blockByte {s : State} {n : Nat} (hm : s.mem.wf = true) (ha : s.index + 8 * n ≤ 4096) {o : Nat}
    (ho : o < 8 * n) : (storeRegs s n).read (s.index + o) = blockByte s o := by
  have h := read_storeRegs_inside n hm ha (k := o / 8) (j := o % 8) (by omega) (by omega)
  rwa [byteOf_eq_extract, show s.index + 8 * (o / 8) + o % 8 = s.index + o by omega] at h

theorem exec_spill_of_le {x : Reg} {s : State} (h : s.index + blockBytes x ≤ 4096) :
    exec (.spill x) s = .next (s.setMem (storeRegs s (blockCount x))).advance := by
  obtain ⟨-, hx⟩ | ⟨hgt, -⟩ := execSpill_cases x s
  · exact hx
  · omega

/-- Settles O52: the next pc lies in the block, so both bytes fetched there are bytes of it. -/
theorem spillIsSeenByTheNextFetch : Obligations.SpillIsSeenByTheNextFetch := by
  intro s x o hm hle hpc ho
  have hread : ∀ k < blockBytes x, (storeRegs s (blockCount x)).read (s.index + k) = blockByte s k :=
    fun k hk => read_storeRegs_blockByte hm hle hk
  have hfirst := hread o (by omega)
  have hsecond := hread (o + 1) (by omega)
  have hfetch : (s.setMem (storeRegs s (blockCount x))).advance.pc ≤ 4094 := by
    rw [State.advance_pc, State.setMem_pc]
    omega
  refine ⟨_, exec_spill_of_le hle, ?_, ?_⟩
  · rw [fetchBytes_of_le hfetch]
    simp [hpc, hfirst, hsecond, Nat.add_assoc]
  · simp [State.word, hpc, hfirst, hsecond, Nat.add_assoc]

end Sys2Proof.Machine

/-! SUPPORT. The decoder against the encoder and the opcode table (spec/30_encoding.md R70 to R79): decoding and
encoding are inverse, the masks of the table sort the words as the decoder does, and what matches no row is on the list
of R78. -/

namespace Sys2Proof.Laws

/-- The law of every instruction's row, the 33 of them together. -/
theorem inTableRow (i : Instr) : InTableRow.Statement i := by
  cases i
  exacts [InTableRow.halt, InTableRow.ret, InTableRow.jp _, InTableRow.call _, InTableRow.seqk _ _, InTableRow.snek _ _,
    InTableRow.seq _ _ _, InTableRow.ldk _ _, InTableRow.addk _ _, InTableRow.mov _ _, InTableRow.or _ _,
    InTableRow.and _ _, InTableRow.xor _ _, InTableRow.add _ _, InTableRow.sub _ _, InTableRow.shr _ _,
    InTableRow.rsub _ _, InTableRow.shl _ _, InTableRow.sne _ _ _, InTableRow.seti _, InTableRow.jpv0 _,
    InTableRow.rand _ _, InTableRow.outx _, InTableRow.outd _, InTableRow.outb _, InTableRow.outo _, InTableRow.addi _,
    InTableRow.spill _, InTableRow.loadb _, InTableRow.inx _, InTableRow.ind _, InTableRow.inb _, InTableRow.ino _]

end Sys2Proof.Laws

namespace Sys2Proof

/-! ### A word put together from some of its fields and the known values of the others (R72) -/

theorem packA_of_fields {w : Code} {t : BitVec 4} (ht : fieldT w = t) : packA t (fieldNNN w) = w := by
  rw [← ht, packA_fields]

theorem packK_of_fields {w : Code} {t : BitVec 4} {nn : BitVec 8} (ht : fieldT w = t) (hnn : fieldNN w = nn) :
    packK t (fieldX w) nn = w := by
  rw [← ht, ← hnn, packK_fields]

theorem packR_of_fields {w : Code} {t n : BitVec 4} (ht : fieldT w = t) (hn : fieldN w = n) :
    packR t (fieldX w) (fieldY w) n = w := by
  rw [← ht, ← hn, packR_fields]

/-! ### Encoding what was decoded (R74, R75) -/

/-- The decoder's last arm is family 0xF: the fifteen others are taken before it. -/
theorem family_eq_input {t : BitVec 4} (h : t ∉ [0x0#4, 0x1#4, 0x2#4, 0x3#4, 0x4#4, 0x5#4, 0x6#4, 0x7#4, 0x8#4, 0x9#4,
    0xA#4, 0xB#4, 0xC#4, 0xD#4, 0xE#4]) : t = 0xF#4 := by
  revert t
  decide

theorem encode_of_decodeAlu {w : Code} {i : Instr} (ht : fieldT w = 0x8#4) (h : decodeAlu w = .instr i) :
    encode i = w := by
  unfold decodeAlu at h
  split at h <;> cases h
  all_goals exact packR_of_fields ht ‹_›

theorem encode_of_decodeOutput {w : Code} {i : Instr} (ht : fieldT w = 0xD#4) (h : decodeOutput w = .instr i) :
    encode i = w := by
  unfold decodeOutput at h
  split at h <;> cases h
  all_goals exact packK_of_fields ht ‹_›

theorem encode_of_decodeIndex {w : Code} {i : Instr} (ht : fieldT w = 0xE#4) (h : decodeIndex w = .instr i) :
    encode i = w := by
  unfold decodeIndex at h
  split at h <;> cases h
  all_goals exact packK_of_fields ht ‹_›

theorem encode_of_decodeInput {w : Code} {i : Instr} (ht : fieldT w = 0xF#4) (h : decodeInput w = .instr i) :
    encode i = w := by
  unfold decodeInput at h
  split at h <;> cases h
  all_goals exact packK_of_fields ht ‹_›

/-- What the dispatch on the top nibble answers, family by family. -/
theorem encode_of_decodeFamily {w : Code} {i : Instr} (h : decodeFamily w = .instr i) : encode i = w := by
  unfold decodeFamily at h
  split at h
  case h_1 => cases h
  case h_2 ht | h_3 ht | h_11 ht | h_12 ht => cases h; exact packA_of_fields ht
  case h_4 ht | h_5 ht | h_7 ht | h_8 ht | h_13 ht => cases h; exact packK_of_fields ht rfl
  case h_6 ht | h_10 ht => cases h; exact packR_of_fields ht rfl
  case h_9 ht => exact encode_of_decodeAlu ht h
  case h_14 ht => exact encode_of_decodeOutput ht h
  case h_15 ht => exact encode_of_decodeIndex ht h
  case h_16 => exact encode_of_decodeInput (family_eq_input (by simp_all)) h

theorem encode_of_decode {w : Code} {i : Instr} (h : decode w = .instr i) : encode i = w := by
  unfold decode at h
  split at h
  next hw => cases h; exact hw.symm
  split at h
  next hw => cases h; exact hw.symm
  exact encode_of_decodeFamily h

/-- Settles O10: the two exact words, and each other instruction by the format of its words. -/
theorem decodeInvertsEncode : Obligations.DecodeInvertsEncode :=
  decode_encode

/-- Settles O11: by the branches of the decoder, each of which takes the operands from the word's own fields. -/
theorem encodeInvertsDecode : Obligations.EncodeInvertsDecode :=
  fun _ _ => encode_of_decode

/-! ### The masks of the opcode table (R75) -/

/-- Mask 0xFFFF: no bit is free. -/
theorem and_allOnes_eq_iff (w v : Code) : w &&& 0xFFFF#16 = v &&& 0xFFFF#16 ↔ w = v := by
  rw [show (0xFFFF#16 : Code) = BitVec.allOnes 16 from rfl, BitVec.and_allOnes, BitVec.and_allOnes]

theorem and_packR (w : Code) (t x y n : BitVec 4) :
    w &&& packR t x y n = packR (fieldT w &&& t) (fieldX w &&& x) (fieldY w &&& y) (fieldN w &&& n) := by
  rw [← packR_and, packR_fields]

/-- Mask 0xF000: the family is fixed. -/
theorem and_familyMask_eq_iff (w v : Code) : w &&& 0xF000#16 = v &&& 0xF000#16 ↔ fieldT w = fieldT v := by
  rw [show (0xF000#16 : Code) = packR 0xF#4 0#4 0#4 0#4 from rfl, and_packR, and_packR, packR_inj]
  simp [ones_and]

/-- Mask 0xF00F: the family and the bottom nibble are fixed. -/
theorem and_nibbleMask_eq_iff (w v : Code) :
    w &&& 0xF00F#16 = v &&& 0xF00F#16 ↔ fieldT w = fieldT v ∧ fieldN w = fieldN v := by
  rw [show (0xF00F#16 : Code) = packR 0xF#4 0#4 0#4 0xF#4 from rfl, and_packR, and_packR, packR_inj]
  simp [ones_and]

theorem fieldNN_eq_fieldNN_iff (w v : Code) :
    fieldNN w = fieldNN v ↔ fieldY w = fieldY v ∧ fieldN w = fieldN v := by
  obtain ⟨hY, hN⟩ := (fieldNN_eq_iff v _).1 rfl
  rw [fieldNN_eq_iff, ← hY, ← hN]

/-- Mask 0xF0FF: the family and the low byte are fixed. -/
theorem and_byteMask_eq_iff (w v : Code) :
    w &&& 0xF0FF#16 = v &&& 0xF0FF#16 ↔ fieldT w = fieldT v ∧ fieldNN w = fieldNN v := by
  rw [show (0xF0FF#16 : Code) = packR 0xF#4 0#4 0xF#4 0xF#4 from rfl, and_packR, and_packR, packR_inj,
    fieldNN_eq_fieldNN_iff]
  simp [ones_and]

theorem row_matches_encode (i : Instr) : i.row.matches (encode i) = true :=
  (Laws.inTableRow i).2

/-- The words of an instruction's row are those that agree with its encoding under the row's mask. -/
theorem row_matches_iff (i : Instr) (w : Code) :
    i.row.matches w = true ↔ w &&& i.row.mask = encode i &&& i.row.mask := by
  have he : encode i &&& i.row.mask = i.row.pattern := beq_iff_eq.1 (row_matches_encode i)
  rw [he, OpcodeRow.matches, beq_iff_eq]

/-- A word in an instruction's row decodes to an instruction of that row: the fields that the mask fixes are those the
decoder dispatches on. -/
theorem decode_of_row_matches {i : Instr} {w : Code} (h : i.row.matches w = true) :
    ∃ j, decode w = .instr j ∧ j.row = i.row := by
  rw [row_matches_iff] at h
  cases i with
  | halt | ret =>
    rw [(and_allOnes_eq_iff w _).1 h]
    exact ⟨_, decode_encode _, rfl⟩
  | jp | call | seqk | snek | seq | ldk | addk | sne | seti | jpv0 | rand =>
    have ht := (and_familyMask_eq_iff w _).1 h
    simp only [encode, fieldT_packA, fieldT_packK, fieldT_packR] at ht
    simp [decode_of_fieldT_ne_zero, decodeFamily, ht, Instr.row]
  | mov | or | and | xor | add | sub | shr | rsub | shl =>
    obtain ⟨ht, hn⟩ := (and_nibbleMask_eq_iff w _).1 h
    simp only [encode, fieldT_packR, fieldN_packR] at ht hn
    simp [decode_of_fieldT_ne_zero, decodeFamily, decodeAlu, ht, hn, Instr.row]
  | outx | outd | outb | outo | addi | spill | loadb | inx | ind | inb | ino =>
    obtain ⟨ht, hnn⟩ := (and_byteMask_eq_iff w _).1 h
    simp only [encode, fieldT_packK, fieldNN_packK] at ht hnn
    simp [decode_of_fieldT_ne_zero, decodeFamily, decodeOutput, decodeIndex, decodeInput, ht, hnn, Instr.row]

theorem row_matches_of_decode {i : Instr} {w : Code} (h : decode w = .instr i) : i.row.matches w = true := by
  rw [← encode_of_decode h]
  exact row_matches_encode i

theorem exists_instr_of_mem_opcodeTable {r : OpcodeRow} (h : r ∈ opcodeTable) : ∃ i : Instr, i.row = r := by
  obtain ⟨i, -, hi⟩ := List.mem_map.1 h
  exact ⟨i, hi⟩

/-- Settles O13: a word in a row decodes into the row, and a decoded word is the encoding of an instruction, which its
row matches. -/
theorem decoderAgreesWithTheTable : Obligations.DecoderAgreesWithTheTable := by
  intro w r hr
  constructor
  · intro h
    obtain ⟨i, rfl⟩ := exists_instr_of_mem_opcodeTable hr
    exact decode_of_row_matches h
  · rintro ⟨i, hd, rfl⟩
    exact row_matches_of_decode hd

/-- Settles O12: both rows are the row of the one instruction the word decodes to. -/
theorem noWordMatchesTwoRows : Obligations.NoWordMatchesTwoRows := by
  intro w r q hr hq hwr hwq
  obtain ⟨i, hi, rfl⟩ := (decoderAgreesWithTheTable w r hr).1 hwr
  obtain ⟨j, hj, rfl⟩ := (decoderAgreesWithTheTable w q hq).1 hwq
  cases hi.symm.trans hj
  rfl

/-! ### The unrecognised words (R78) -/

/-- Of the sixteen bottom nibbles family 0x8 lists nine, and R78 the seven others. -/
theorem nibble_unlisted_iff (n : BitVec 4) :
    n ∈ [0x8#4, 0x9#4, 0xA#4, 0xB#4, 0xC#4, 0xD#4, 0xF#4] ↔
      n ∉ [0x0#4, 0x1#4, 0x2#4, 0x3#4, 0x4#4, 0x5#4, 0x6#4, 0x7#4, 0xE#4] := by
  revert n
  decide

theorem decodeAlu_eq_unrecognised_iff (w : Code) :
    decodeAlu w = .unrecognised w ↔ fieldN w ∈ [0x8#4, 0x9#4, 0xA#4, 0xB#4, 0xC#4, 0xD#4, 0xF#4] := by
  rw [nibble_unlisted_iff]
  unfold decodeAlu
  split <;> simp_all

theorem decodeOutput_eq_unrecognised_iff (w : Code) :
    decodeOutput w = .unrecognised w ↔ fieldNN w ∉ [0x00#8, 0x01#8, 0x02#8, 0x03#8] := by
  unfold decodeOutput
  split <;> simp_all

theorem decodeIndex_eq_unrecognised_iff (w : Code) :
    decodeIndex w = .unrecognised w ↔ fieldNN w ∉ [0x1E#8, 0x55#8, 0x65#8] := by
  unfold decodeIndex
  split <;> simp_all

theorem decodeInput_eq_unrecognised_iff (w : Code) :
    decodeInput w = .unrecognised w ↔ fieldNN w ∉ [0x00#8, 0x01#8, 0x02#8, 0x03#8] := by
  unfold decodeInput
  split <;> simp_all

/-- Settles O14: the two exact words are recognised; then family by family, as the decoder dispatches. -/
theorem unrecognisedWordsAreTheListed : Obligations.UnrecognisedWordsAreTheListed := by
  intro w
  by_cases hhalt : w = 0x0000#16
  · subst hhalt; decide
  by_cases hret : w = 0x01EE#16
  · subst hret; decide
  rw [decode, if_neg hhalt, if_neg hret]
  unfold decodeFamily
  split
  case h_9 ht => simp [decodeAlu_eq_unrecognised_iff, ht]
  case h_14 ht => simp [decodeOutput_eq_unrecognised_iff, ht]
  case h_15 ht => simp [decodeIndex_eq_unrecognised_iff, ht]
  case h_16 =>
    have ht : fieldT w = 0xF#4 := family_eq_input (by simp_all)
    simp [decodeInput_eq_unrecognised_iff, ht]
  case h_1 ht => simp [ht, hhalt, hret]
  all_goals
    rename_i ht
    simp [ht]

/-- Settles O15: six words are encodings, and two are on the list of the unrecognised. -/
theorem sampleWordsDecode : Obligations.SampleWordsDecode :=
  ⟨decode_encode .ret, decode_encode (.call 0x400#12), decode_encode (.seq 0xA#4 0xB#4 0x7#4),
    decode_encode (.rsub 0xA#4 0xB#4), decode_encode (.shl 0xA#4 0x1#4), decode_encode (.spill 0x1#4),
    (unrecognisedWordsAreTheListed _).2 (by decide), (unrecognisedWordsAreTheListed _).2 (by decide)⟩

end Sys2Proof

namespace Sys2Proof.Machine

/-! ### The word fetched (R52, R70) -/

theorem word_toNat (s : State) :
    s.word.toNat = (s.mem.read s.pc).toNat * 256 + (s.mem.read (s.pc + 1)).toNat :=
  append_toNat (s.mem.read s.pc) (s.mem.read (s.pc + 1))

theorem Memory.readBE_two (m : Memory) (a : Nat) : m.readBE a 2 = (m.read a).toNat * 256 + (m.read (a + 1)).toNat := by
  simp [Memory.readBE]

/-- Settles O18: both sides are the two bytes at `pc`, the first as the high one. -/
theorem fetchReadsTheBigEndianWord : Obligations.FetchReadsTheBigEndianWord := by
  intro s h
  refine ⟨?_, word_toNat s, decode_fetchBytes h⟩
  rw [word_toNat, Memory.readBE_two]

/-! ### No refusal (R79, R200) -/

theorem input_ne_refused (b : Base) (x : Reg) (s : State) (r : Refusal) : input b x s ≠ .refused r := by
  obtain ⟨-, h⟩ | ⟨_, _, _, -, -, h⟩ | ⟨_, _, -, -, h⟩ := input_cases b x s <;> rw [h] <;> nofun

theorem execSpill_ne_refused (x : Reg) (s : State) (r : Refusal) : execSpill x s ≠ .refused r := by
  obtain ⟨-, h⟩ | ⟨-, h⟩ := execSpill_cases x s <;> rw [h] <;> nofun

theorem execLoadb_ne_refused (x : Reg) (s : State) (r : Refusal) : execLoadb x s ≠ .refused r := by
  obtain ⟨-, h⟩ | ⟨-, h⟩ := execLoadb_cases x s <;> rw [h] <;> nofun

theorem execRet_ne_refused (s : State) (r : Refusal) : execRet s ≠ .refused r := by
  unfold execRet
  split <;> nofun

/-- RET, the block instructions and the input instructions complete or fault; every other instruction completes. -/
theorem exec_ne_refused (i : Instr) (s : State) (r : Refusal) : exec i s ≠ .refused r := by
  cases i with
  | ret => exact execRet_ne_refused s r
  | spill x => exact execSpill_ne_refused x s r
  | loadb x => exact execLoadb_ne_refused x s r
  | inx | ind | inb | ino => exact input_ne_refused _ _ s r
  | _ => nofun

/-- Settles O23: a step stays, faults, executes or is the no-op, and no execution is refused. -/
theorem nothingIsRefused : Obligations.NothingIsRefused := by
  refine ⟨exec_ne_refused, fun s r => ?_⟩
  obtain ⟨-, h⟩ | ⟨-, -, h⟩ | ⟨i, -, -, -, h⟩ | ⟨-, -, -, h⟩ := step_cases s
  · rw [h]; nofun
  · rw [h]; nofun
  · rw [h]; exact exec_ne_refused i s r
  · rw [h]; nofun

end Sys2Proof.Machine

/-! SUPPORT. The step as the decoder answers it and the run call cycle by cycle (spec/40_engine.md R100 to R107). -/

namespace Sys2Proof.Machine

/-! ### The step at a fetchable pc (R101, R104) -/

theorem step_of_instr {s : State} {i : Instr} (hf : s.fetches) (hd : decode s.word = .instr i) : step s = exec i s :=
  step_of_decodeBytes hf.1 ((decode_fetchBytes hf.2).trans hd)

theorem step_of_unrecognised {s : State} {w : Code} (hf : s.fetches) (hd : decode s.word = .unrecognised w) :
    step s = .next s.advance := by
  obtain ⟨hrun, hpc⟩ := hf
  unfold step
  rw [hrun, decode_fetchBytes hpc, hd]
  rfl

theorem waiting_of_unrecognised {s : State} {w : Code} (hf : s.fetches) (hd : decode s.word = .unrecognised w) :
    s.waiting = false := by
  obtain ⟨hrun, hpc⟩ := hf
  unfold State.waiting
  rw [hrun, decode_fetchBytes hpc, hd]
  cases s.consoleIn <;> rfl

theorem advance_registerFrame (s : State) : RegisterFrame s s.advance [] :=
  ⟨fun _ _ => rfl, ⟨rfl, rfl, rfl⟩, fun _ => rfl, rfl, rfl, rfl⟩

/-! ### The run call, one equation per way its first cycle goes (R106, R209, R239) -/

theorem runFor_halted {s : State} (h : s.engine = .halted) (n : Nat) : runFor n s = (.halted, s) := by
  cases n <;> simp [runFor, h]

theorem runFor_zero {s : State} (h : s.engine = .running) : runFor 0 s = (.budgetExhausted, s) := by
  simp [runFor, h]

theorem runFor_succ_of_waiting {s : State} (h : s.engine = .running) (hw : s.waiting = true) (n : Nat) :
    runFor (n + 1) s = (.blocked, s) := by
  simp [runFor, h, hw]

theorem runFor_succ_of_next {s t : State} (h : s.engine = .running) (hw : s.waiting = false) (hx : step s = .next t)
    (n : Nat) : runFor (n + 1) s = runFor n t := by
  simp [runFor, h, hw, hx]

theorem runFor_succ_of_fault {s : State} {f : Fault} (hw : s.waiting = false) (hx : step s = .fault f) (n : Nat) :
    runFor (n + 1) s = (.fault f, s.afterFault f) := by
  simp [runFor, running_of_step_fault hx, hw, hx]

/-- A run with budget left either ends by itself in its first cycle, the same way for every budget, or completes that
cycle and is the run with one less. -/
theorem runFor_succ_cases (s : State) :
    (∃ st t, st ≠ .budgetExhausted ∧ ∀ n, runFor (n + 1) s = (st, t)) ∨ ∃ t, ∀ n, runFor (n + 1) s = runFor n t := by
  cases he : s.engine with
  | halted => exact .inl ⟨.halted, s, nofun, fun n => runFor_halted he (n + 1)⟩
  | running =>
    cases hw : s.waiting with
    | true => exact .inl ⟨.blocked, s, nofun, runFor_succ_of_waiting he hw⟩
    | false =>
      cases hx : step s with
      | next t => exact .inr ⟨t, runFor_succ_of_next he hw hx⟩
      | fault f => exact .inl ⟨.fault f, s.afterFault f, nofun, runFor_succ_of_fault hw hx⟩
      | refused r => exact absurd hx (nothingIsRefused.2 s r)

/-- The law of batches (R107): a second budget is spent from where the first ran out, and not at all where the first
call ended by itself. -/
theorem runFor_add (a b : Nat) (s : State) :
    runFor (a + b) s = if (runFor a s).1 = .budgetExhausted then runFor b (runFor a s).2 else runFor a s := by
  induction a generalizing s with
  | zero =>
    cases he : s.engine with
    | halted => simp [runFor_halted he]
    | running => simp [runFor_zero he]
  | succ a ih =>
    rw [Nat.succ_add]
    obtain ⟨st, t, hst, h⟩ | ⟨t, h⟩ := runFor_succ_cases s
    · rw [h, h, if_neg hst]
    · rw [h, h, ih]

/-! ### The statements about the engine -/

/-- Settles O5: both clauses are cases of the law of batches. -/
theorem runSplitsIntoBatches : Obligations.RunSplitsIntoBatches := by
  intro a b s
  constructor
  · intro t h
    rw [runFor_add, h, if_pos rfl]
  · intro st t h hst
    rw [runFor_add, h, if_neg hst]

/-- Settles O17: at a fetchable pc the decoder sees the word there. -/
theorem stepRunsTheDecodedInstruction : Obligations.StepRunsTheDecodedInstruction :=
  fun _ _ => step_of_instr

/-- Settles O19: the step is the bare auto-advance, a completed cycle that never waits. -/
theorem unrecognisedWordIsANoOp : Obligations.UnrecognisedWordIsANoOp := by
  intro s w hf hd
  have hx := step_of_unrecognised hf hd
  exact ⟨s.advance, hx, State.advance_pc s, advance_registerFrame s,
    runFor_succ_of_next hf.1 (waiting_of_unrecognised hf hd) hx⟩

/-- Settles O21: the step and the run call both test the engine state first. -/
theorem haltedEngineStaysHalted : Obligations.HaltedEngineStaysHalted :=
  fun _ h => ⟨step_halted h, runFor_halted h⟩

/-- Settles O32: the state HALT leaves differs in the engine state and the pc alone, and is a halted one. -/
theorem haltStopsTheEngine : Obligations.HaltStopsTheEngine := by
  intro s
  have he : s.halt.advance.engine = .halted := rfl
  exact ⟨s.halt.advance, rfl, he, rfl, fun _ _ => rfl, rfl, rfl, fun _ => rfl, ⟨rfl, rfl, rfl⟩, runFor_halted he⟩

/-- Settles O60: the equations of the run call for budget 0 and for a completed cycle. -/
theorem everyCompletedCycleCountsOnce : Obligations.EveryCompletedCycleCountsOnce :=
  fun _ h => ⟨runFor_zero h, fun _ hw hx => runFor_succ_of_next h hw hx⟩

end Sys2Proof.Machine

/-! SUPPORT. Control transfer (spec/41_control_transfer.md R120 to R128): what RET, the jumps, CALL and the skips do to the
pc and the call stack, and the invariant that every step keeps. -/

namespace Sys2Proof.Machine

/-! ### The invariant along a step (R54, R101, R122) -/

/-- The invariant speaks of memory and the call stack alone. -/
theorem State.Inv.of_eq {s t : State} (hs : s.Inv) (hmem : t.mem = s.mem) (hstack : t.stack = s.stack) : t.Inv := by
  rwa [State.Inv, hmem, hstack]

/-- CALL pushes a `pc` that was fetched from, RET leaves a part of the stack, SPILL has tested its range; every other
instruction keeps memory and the stack. -/
theorem exec_keeps_inv {i : Instr} {s t : State} (hs : s.Inv) (hpc : s.pc ≤ 4094) (h : exec i s = .next t) :
    t.Inv := by
  have ⟨hmem, hstack⟩ := hs
  cases exec_controlEffect h with
  | ordinary kept mem =>
    obtain ⟨-, stack, -⟩ := kept
    exact hs.of_eq mem stack
  | halt | seti | addi => exact hs.of_eq rfl rfl
  | ret => exact ⟨hmem, fun v hv => hstack v (List.mem_of_mem_tail hv)⟩
  | call => exact ⟨hmem, List.forall_mem_cons.2 ⟨hpc, hstack⟩⟩
  | spill x hle => exact ⟨wf_storeRegs (blockCount x) hmem hle, hstack⟩
  | loadb x =>
    obtain ⟨-, -, stack, -, mem, -⟩ := loadRegs_frame s (blockCount x)
    exact hs.of_eq mem stack

/-- Settles O8: a halted engine and the no-op keep memory and the stack, and an instruction that runs was fetched. -/
theorem stepKeepsTheInvariant : Obligations.StepKeepsTheInvariant := by
  intro s t hs h
  obtain ⟨-, hx⟩ | ⟨-, -, hx⟩ | ⟨i, -, hpc, -, hx⟩ | ⟨-, -, -, hx⟩ := step_cases s
  · exact next_inj (hx.symm.trans h) ▸ hs
  · cases hx.symm.trans h
  · exact exec_keeps_inv hs hpc (hx.symm.trans h)
  · exact next_inj (hx.symm.trans h) ▸ hs.of_eq rfl rfl

/-! ### Jumps and skips (R121, R123 to R128) -/

theorem setPc_registerFrame (s : State) (n : Nat) : RegisterFrame s (s.setPc n) [] :=
  ⟨fun _ _ => rfl, ⟨rfl, rfl, rfl⟩, fun _ => rfl, rfl, rfl, rfl⟩

/-- Settles O34: both jumps set the pc and do nothing more. -/
theorem jumpsSetOnlyThePc : Obligations.JumpsSetOnlyThePc :=
  fun s _ => ⟨⟨_, transfer_eq s _, rfl, setPc_registerFrame s _⟩, ⟨_, transfer_eq s _, rfl, setPc_registerFrame s _⟩⟩

/-- A skip on a test that decides `p` moves the pc by 4 when `p` holds and by 2 when it does not (R128). -/
theorem skipIf_moves {c : Bool} {p : Prop} [Decidable p] (hc : c = true ↔ p) (s : State) :
    ∃ t, skipIf c s = .next t ∧ RegisterFrame s t [] ∧ t.pc = if p then s.pc + 4 else s.pc + 2 :=
  ⟨_, skipIf_eq c s, setPc_registerFrame s _, by simp [hc]⟩

/-- Settles O37: the four tests compare 64-bit words, which are equal when their unsigned values are. -/
theorem skipsMoveByFourOrTwo : Obligations.SkipsMoveByFourOrTwo := by
  intro s x y nn n
  have hk : s.reg x = zextNN nn ↔ (s.reg x).toNat = nn.toNat := eq_zextNN_iff _ nn
  have hr : s.reg x = s.reg y ↔ (s.reg x).toNat = (s.reg y).toNat := BitVec.toNat_inj.symm
  exact ⟨skipIf_moves (beq_iff_eq.trans hk) s, skipIf_moves (bne_iff_ne.trans hk.not) s,
    skipIf_moves (beq_iff_eq.trans hr) s, skipIf_moves (bne_iff_ne.trans hr.not) s⟩

/-! ### CALL and RET (R120, R122, R203, R204) -/

theorem callWith_of_room {cap : Option Nat} {s : State} (h : cap ≠ some s.stack.length) (nnn : BitVec 12) :
    callWith cap nnn s = .next ((s.push s.pc).setPc nnn.toNat) := by
  obtain ⟨hfull, -⟩ | ⟨-, hx⟩ := callWith_cases cap nnn s
  · exact absurd hfull h
  · exact hx

theorem callWith_of_full (s : State) (nnn : BitVec 12) :
    callWith (some s.stack.length) nnn s = .fault (.stackOverflow s.pc) := by
  obtain ⟨-, hx⟩ | ⟨hroom, -⟩ := callWith_cases (some s.stack.length) nnn s
  · exact hx
  · exact absurd rfl hroom

/-- Settles O35: this build's CALL and that of every build with room answer one state; a full stack overflows. -/
theorem callPushesItsOwnAddress : Obligations.CallPushesItsOwnAddress :=
  fun s nnn => ⟨_, execCall_eq nnn s, rfl, rfl, fun _ _ => rfl, rfl, rfl, fun _ => rfl, ⟨rfl, rfl, rfl⟩,
    fun _ hcap => callWith_of_room hcap nnn, callWith_of_full s nnn⟩

theorem exec_ret_of_cons {s : State} {top : Nat} {rest : List Nat} (h : s.stack = top :: rest) :
    exec .ret s = .next (s.dropTop.setPc top).advance := by
  simp [exec, execRet, h]

theorem exec_ret_of_nil {s : State} (h : s.stack = []) : exec .ret s = .fault (.stackUnderflow s.pc) := by
  simp [exec, execRet, h]

/-- Settles O33: the popped address advanced on a nonempty stack, the fault on an empty one. -/
theorem retReturnsPastTheCall : Obligations.RetReturnsPastTheCall := by
  refine ⟨fun s top rest hs => ?_, fun _ => exec_ret_of_nil⟩
  have hrest : (s.dropTop.setPc top).advance.stack = rest := by simp [hs]
  exact ⟨_, exec_ret_of_cons hs, rfl, hrest, fun _ _ => rfl, rfl, rfl, fun _ => rfl, ⟨rfl, rfl, rfl⟩⟩

/-- Settles O36: the stack CALL left has its address on top, which is where RET returns past. -/
theorem callThenRetComesBack : Obligations.CallThenRetComesBack := by
  intro s t u nnn hcall hu
  have hstack : u.stack = s.pc :: s.stack := by rw [hu, next_inj hcall, State.setPc_stack, State.push_stack]
  obtain ⟨v, hret, hpc, hrest, -⟩ := retReturnsPastTheCall.1 u _ _ hstack
  exact ⟨v, hret, hpc, hrest⟩

end Sys2Proof.Machine

/-! SUPPORT. The register and ALU instructions (spec/42_register_alu.md R140 to R154): the frame of each kind of register
write, and the values as numbers, the flag register as destination or operand included. -/

namespace Sys2Proof.Machine

/-! ### The frame, one write at a time -/

theorem RegisterFrame.refl (s : State) (ws : List Reg) : RegisterFrame s s ws :=
  ⟨fun _ _ => rfl, ⟨rfl, rfl, rfl⟩, fun _ => rfl, rfl, rfl, rfl⟩

/-- Writing a listed register stays inside the frame. -/
theorem RegisterFrame.setReg {s u : State} {ws : List Reg} {r : Reg} (h : RegisterFrame s u ws) (hr : r ∈ ws)
    (v : Word) : RegisterFrame s (u.setReg r v) ws := by
  obtain ⟨hregs, hrest⟩ := h
  refine ⟨fun q hq => ?_, hrest⟩
  have hne : q ≠ r := fun e => hq (e ▸ hr)
  rw [State.reg_setReg_other u v hne, hregs q hq]

/-- Moving the pc stays inside every frame. -/
theorem RegisterFrame.advance {s u : State} {ws : List Reg} (h : RegisterFrame s u ws) :
    RegisterFrame s u.advance ws :=
  h

theorem setReg_registerFrame (s : State) (r : Reg) (v : Word) : RegisterFrame s (s.setReg r v) [r] :=
  (RegisterFrame.refl s [r]).setReg (List.mem_singleton_self r) v

theorem setFlag_registerFrame (s : State) (x : Reg) (b : Bool) : RegisterFrame s (s.setFlag b) [x, Reg.vf] :=
  (RegisterFrame.refl s [x, Reg.vf]).setReg (by simp) (flagWord b)

/-- The shape of ADD, SUB, RSUB, SHR and SHL: the flag, then the destination. -/
theorem setFlag_setReg_registerFrame (s : State) (x : Reg) (b : Bool) (v : Word) :
    RegisterFrame s ((s.setFlag b).setReg x v) [x, Reg.vf] :=
  (setFlag_registerFrame s x b).setReg (by simp) v

theorem shiftRightBy_registerFrame (x : Reg) (a : Nat) (s : State) :
    RegisterFrame s (shiftRightBy x a s) [x, Reg.vf] := by
  unfold shiftRightBy
  split
  · exact setFlag_registerFrame s x false
  · exact setFlag_setReg_registerFrame s x _ _

theorem shiftLeftBy_registerFrame (x : Reg) (a : Nat) (s : State) :
    RegisterFrame s (shiftLeftBy x a s) [x, Reg.vf] := by
  unfold shiftLeftBy
  split
  · exact setFlag_registerFrame s x false
  · exact setFlag_setReg_registerFrame s x _ _

/-! ### Constants, moves, logic and RAND (R140 to R145, R151) -/

theorem zextNN_getLsbD (nn : BitVec 8) (k : Nat) : (zextNN nn).getLsbD k = nn.getLsbD k := by
  rw [← BitVec.testBit_toNat, zextNN_toNat, BitVec.testBit_toNat]

/-- What the instructions that write one register and no flag have in common. -/
theorem complete_setReg (s : State) (r : Reg) (v : Word) :
    ∃ t, complete (s.setReg r v) = .next t ∧ t.reg r = v ∧ t.pc = s.pc + 2 ∧ RegisterFrame s t [r] :=
  ⟨_, rfl, State.reg_setReg_same s r v, rfl, (setReg_registerFrame s r v).advance⟩

/-- Settles O38: one register written, its value as a number. -/
theorem constantsLoadAndAdd : Obligations.ConstantsLoadAndAdd := by
  intro s x nn
  constructor
  · obtain ⟨t, hx, hreg, hpc, hframe⟩ := complete_setReg s x (zextNN nn)
    exact ⟨t, hx, by rw [hreg, zextNN_toNat], hpc, hframe⟩
  · obtain ⟨t, hx, hreg, hpc, hframe⟩ := complete_setReg s x (s.reg x + zextNN nn)
    exact ⟨t, hx, by rw [hreg, BitVec.toNat_add, zextNN_toNat], hpc, hframe⟩

/-- Settles O39: one register written, its value bit by bit. -/
theorem moveAndLogicBitByBit : Obligations.MoveAndLogicBitByBit := by
  intro s x y
  refine ⟨complete_setReg s x (s.reg y), ?_, ?_, ?_⟩
  · obtain ⟨t, hx, hreg, hpc, hframe⟩ := complete_setReg s x (s.reg x ||| s.reg y)
    exact ⟨t, hx, hpc, hframe, fun _ => by rw [hreg, BitVec.getLsbD_or]⟩
  · obtain ⟨t, hx, hreg, hpc, hframe⟩ := complete_setReg s x (s.reg x &&& s.reg y)
    exact ⟨t, hx, hpc, hframe, fun _ => by rw [hreg, BitVec.getLsbD_and]⟩
  · obtain ⟨t, hx, hreg, hpc, hframe⟩ := complete_setReg s x (s.reg x ^^^ s.reg y)
    exact ⟨t, hx, hpc, hframe, fun _ => by rw [hreg, BitVec.getLsbD_xor]⟩

/-- Settles O46: the register write after the one draw, whose byte is masked before it is widened. -/
theorem randMasksOneDraw : Obligations.RandMasksOneDraw := by
  intro s x nn
  obtain ⟨t, hx, hreg, hpc, hregs, hcontrol, hmem, hin, hout, hdraws⟩ :=
    complete_setReg s.drawn x (zextNN (s.nextByte &&& nn))
  have hval : (t.reg x).toNat = (s.nextByte &&& nn).toNat := by rw [hreg, zextNN_toNat]
  refine ⟨t, hx, hpc, hval, ?_, fun k hk => ?_, hdraws, hregs, hcontrol, hmem, hin, hout⟩
  · rw [hval]
    exact Nat.le_of_lt_succ (s.nextByte &&& nn).isLt
  · rw [hreg, zextNN_getLsbD, BitVec.getLsbD_and, hk, Bool.and_false]

/-! ### ADD (R146) -/

theorem exec_add (x y : Reg) (s : State) : exec (.add x y) s =
    .next ((s.setFlag (carryOut (s.reg x + s.reg y) (s.reg x))).setReg x (s.reg x + s.reg y)).advance := rfl

theorem flagWord_carryOut (a b : Word) :
    flagWord (carryOut (a + b) a) = if 2 ^ 64 ≤ a.toNat + b.toNat then 1#64 else 0#64 := by
  rw [carryOut_iff, flagWord]
  simp only [decide_eq_true_eq]

/-- ADD into a register other than VF leaves the carry in VF. -/
theorem reg_vf_add {x : Reg} (hx : x ≠ Reg.vf) (s : State) (b : Bool) (v : Word) :
    ((s.setFlag b).setReg x v).advance.reg Reg.vf = flagWord b := by
  rw [State.advance_reg, State.reg_setReg_other _ v hx.symm, State.reg_setFlag_vf]

/-- Settles O40: the test on the wrapped sum is the carry of the exact one. -/
theorem addSetsTheCarry : Obligations.AddSetsTheCarry := by
  intro s x y
  refine ⟨_, exec_add x y s, rfl, (setFlag_setReg_registerFrame s x _ _).advance, ?_, fun hx => ?_⟩
  · rw [State.advance_reg, State.reg_setReg_same, BitVec.toNat_add]
  · rw [reg_vf_add hx, flagWord_carryOut, apply_ite BitVec.toNat]
    rfl

/-! ### SUB and RSUB (R147, R149) -/

theorem exec_sub (x y : Reg) (s : State) : exec (.sub x y) s = .next (subtractInto x y s).advance := rfl

theorem exec_rsub (x y : Reg) (s : State) : exec (.rsub x y) s = .next (subtractInto y x s).advance := rfl

theorem flagWord_noBorrow_toNat (m n : Word) :
    (flagWord (noBorrow m n)).toNat = if n.toNat ≤ m.toNat then 1 else 0 := by
  rw [flagWord_noBorrow, apply_ite BitVec.toNat]
  rfl

theorem sub_toNat (a b : Word) : (a - b).toNat = (a.toNat + 2 ^ 64 - b.toNat) % 2 ^ 64 := by
  have hb := b.isLt
  rw [BitVec.toNat_sub]
  congr 1
  omega

/-- The destination after a subtraction: both operands are read after the flag was written. -/
theorem reg_subtractInto_dest (m n : Reg) (s : State) :
    (subtractInto m n s).reg m =
      (s.setFlag (noBorrow (s.reg m) (s.reg n))).reg m - (s.setFlag (noBorrow (s.reg m) (s.reg n))).reg n :=
  State.reg_setReg_same _ m _

theorem reg_subtractInto_vf {m : Reg} (hm : m ≠ Reg.vf) (n : Reg) (s : State) :
    (subtractInto m n s).reg Reg.vf = flagWord (noBorrow (s.reg m) (s.reg n)) := by
  rw [reg_subtractInto, if_neg hm.symm, if_pos rfl]

/-- What SUB and RSUB share, `m` the minuend and destination. -/
theorem complete_subtractInto (m n : Reg) (s : State) :
    ∃ t, complete (subtractInto m n s) = .next t ∧ t.pc = s.pc + 2 ∧ RegisterFrame s t [m, Reg.vf] ∧
      ∀ c : Nat, c = (if (s.reg n).toNat ≤ (s.reg m).toNat then 1 else 0) →
        (m ≠ Reg.vf → (t.reg Reg.vf).toNat = c) ∧
        ∀ a b : Nat, a = (if m = Reg.vf then c else (s.reg m).toNat) →
          b = (if n = Reg.vf then c else (s.reg n).toNat) → (t.reg m).toNat = (a + 2 ^ 64 - b) % 2 ^ 64 := by
  refine ⟨_, rfl, rfl, (setFlag_setReg_registerFrame s m _ _).advance, fun c hc => ⟨fun hm => ?_, ?_⟩⟩
  · rw [State.advance_reg, reg_subtractInto_vf hm, flagWord_noBorrow_toNat, hc]
  · rintro a b rfl rfl
    rw [← flagWord_noBorrow_toNat] at hc
    rw [State.advance_reg, reg_subtractInto_dest, sub_toNat, State.reg_setFlag, State.reg_setFlag, hc,
      apply_ite BitVec.toNat, apply_ite BitVec.toNat]

/-- Settles O41: SUB is the shared subtraction into `x`. -/
theorem subSetsNoBorrow : Obligations.SubSetsNoBorrow :=
  fun s x y => complete_subtractInto x y s

/-- Settles O42: RSUB is the shared subtraction into `y`. -/
theorem rsubWritesTheSecondOperand : Obligations.RsubWritesTheSecondOperand :=
  fun s x y => complete_subtractInto y x s

/-! ### SHR and SHL (R148, R150) -/

theorem exec_shr (x : Reg) (a : BitVec 4) (s : State) :
    exec (.shr x a) s = .next (shiftRightBy x a.toNat s).advance := rfl

theorem exec_shl (x : Reg) (a : BitVec 4) (s : State) :
    exec (.shl x a) s = .next (shiftLeftBy x a.toNat s).advance := rfl

/-- A flag is one bit, which every right shift pushes out. -/
theorem flagWord_ushiftRight (b : Bool) {a : Nat} (ha : a ≠ 0) : flagWord b >>> a = 0#64 := by
  apply BitVec.eq_of_toNat_eq
  rw [BitVec.toNat_ushiftRight, Nat.shiftRight_eq_div_pow, flagWord_toNat]
  exact Nat.div_eq_of_lt ((Bool.toNat_lt b).trans_le (Nat.le_self_pow ha 2))

/-- A flag is one bit, which a shift by less than 64 keeps. -/
theorem flagWord_shiftLeft_toNat (b : Bool) {a : Nat} (ha : a < 64) :
    (flagWord b <<< a).toNat = b.toNat * 2 ^ a := by
  rw [BitVec.toNat_shiftLeft, Nat.shiftLeft_eq, flagWord_toNat]
  apply Nat.mod_eq_of_lt
  calc b.toNat * 2 ^ a ≤ 1 * 2 ^ a := Nat.mul_le_mul_right _ (Bool.toNat_le b)
    _ = 2 ^ a := Nat.one_mul _
    _ < 2 ^ 64 := Nat.pow_lt_pow_right (by omega) ha

theorem flagWord_bitOutRight_toNat (v : Word) (a : Nat) :
    (flagWord (bitOutRight v a)).toNat = v.toNat / 2 ^ (a - 1) % 2 := by
  rw [flagWord_toNat, bitOutRight, getLsbD_toNat]

theorem flagWord_bitOutLeft_toNat (v : Word) (a : Nat) :
    (flagWord (bitOutLeft v a)).toNat = v.toNat / 2 ^ (64 - a) % 2 := by
  rw [flagWord_toNat, bitOutLeft, getLsbD_toNat]

/-- Settles O43: by the amount and the destination, the shift of VF being that of the bit just written to it. -/
theorem shrDividesAndReportsTheBit : Obligations.ShrDividesAndReportsTheBit := by
  intro s x a
  obtain ⟨hpc, -⟩ := shiftRightBy_frame x a.toNat s
  refine ⟨_, exec_shr x a s, pc_of_complete rfl hpc, (shiftRightBy_registerFrame x a.toNat s).advance,
    fun ha => ⟨?_, fun hx => ?_⟩, fun ha hx => ⟨?_, ?_⟩, fun ha hx => ?_⟩
  · rw [State.advance_reg, reg_shiftRightBy, if_pos ha, if_pos rfl]
  · rw [State.advance_reg, reg_shiftRightBy, if_pos ha, if_neg hx]
  · rw [State.advance_reg, reg_shiftRightBy, if_neg ha, if_pos rfl, if_neg hx, BitVec.toNat_ushiftRight,
      Nat.shiftRight_eq_div_pow]
  · rw [State.advance_reg, reg_shiftRightBy, if_neg ha, if_neg hx.symm, if_pos rfl, flagWord_bitOutRight_toNat]
  · rw [State.advance_reg, reg_shiftRightBy, if_neg ha, if_pos hx.symm, if_pos hx, flagWord_ushiftRight _ ha]

/-- Settles O44: the same cases; the bit shifted up stays below 2^64. -/
theorem shlMultipliesAndReportsTheBit : Obligations.ShlMultipliesAndReportsTheBit := by
  intro s x a
  have hlt : a.toNat < 64 := a.isLt.trans (by decide)
  obtain ⟨hpc, -⟩ := shiftLeftBy_frame x a.toNat s
  refine ⟨_, exec_shl x a s, pc_of_complete rfl hpc, (shiftLeftBy_registerFrame x a.toNat s).advance,
    fun ha => ⟨?_, fun hx => ?_⟩, fun ha hx => ⟨?_, ?_⟩, fun ha hx => ?_⟩
  · rw [State.advance_reg, reg_shiftLeftBy, if_pos ha, if_pos rfl]
  · rw [State.advance_reg, reg_shiftLeftBy, if_pos ha, if_neg hx]
  · rw [State.advance_reg, reg_shiftLeftBy, if_neg ha, if_pos rfl, if_neg hx, BitVec.toNat_shiftLeft, Nat.shiftLeft_eq]
  · rw [State.advance_reg, reg_shiftLeftBy, if_neg ha, if_neg hx.symm, if_pos rfl, flagWord_bitOutLeft_toNat]
  · rw [State.advance_reg, reg_shiftLeftBy, if_neg ha, if_pos hx.symm, if_pos hx, flagWord_shiftLeft_toNat _ hlt,
      ← flagWord_toNat, flagWord_bitOutLeft_toNat]

/-! ### The flag register as an operand (R154) -/

/-- VF the minuend: what is subtracted from is the flag. -/
theorem reg_subtractInto_vf_minuend {q : Reg} (hq : q ≠ Reg.vf) (s : State) :
    (subtractInto Reg.vf q s).reg Reg.vf = (if s.reg q ≤ s.reg Reg.vf then 1#64 else 0#64) - s.reg q := by
  rw [reg_subtractInto_dest, State.reg_setFlag_vf, State.reg_setFlag, if_neg hq, flagWord_noBorrow]

/-- VF the subtrahend: what is subtracted is the flag. -/
theorem reg_subtractInto_vf_subtrahend {q : Reg} (hq : q ≠ Reg.vf) (s : State) :
    (subtractInto q Reg.vf s).reg q = s.reg q - (if s.reg Reg.vf ≤ s.reg q then 1#64 else 0#64) := by
  rw [reg_subtractInto_dest, State.reg_setFlag_vf, State.reg_setFlag, if_neg hq, flagWord_noBorrow]

theorem reg_subtractInto_vf_both (s : State) : (subtractInto Reg.vf Reg.vf s).reg Reg.vf = 0#64 := by
  rw [reg_subtractInto_dest, BitVec.sub_self]

/-- The flag after a subtraction of VF from another register. -/
theorem reg_vf_subtractInto {q : Reg} (hq : q ≠ Reg.vf) (s : State) :
    (subtractInto q Reg.vf s).reg Reg.vf = if s.reg Reg.vf ≤ s.reg q then 1#64 else 0#64 := by
  rw [reg_subtractInto_vf hq, flagWord_noBorrow]

/-- SHR of VF leaves 0 for every amount. -/
theorem exec_shr_vf (a : BitVec 4) (s : State) :
    ∃ t, exec (.shr Reg.vf a) s = .next t ∧ t.reg Reg.vf = 0#64 := by
  obtain ⟨t, hx, -, -, hzero, -, hshift⟩ := shrDividesAndReportsTheBit s Reg.vf a
  by_cases ha : a.toNat = 0
  · obtain ⟨hvf, -⟩ := hzero ha
    exact ⟨t, hx, hvf⟩
  · exact ⟨t, hx, hshift ha rfl⟩

/-- SHL of VF leaves 0 for amount 0, else the bit pushed out, shifted. -/
theorem exec_shl_vf (a : BitVec 4) (s : State) :
    ∃ t, exec (.shl Reg.vf a) s = .next t ∧ (a.toNat = 0 → t.reg Reg.vf = 0#64) ∧
      (a.toNat ≠ 0 → (t.reg Reg.vf).toNat = ((s.reg Reg.vf).getLsbD (64 - a.toNat)).toNat * 2 ^ a.toNat) := by
  obtain ⟨t, hx, -, -, hzero, -, hshift⟩ := shlMultipliesAndReportsTheBit s Reg.vf a
  refine ⟨t, hx, fun ha => ?_, fun ha => ?_⟩
  · obtain ⟨hvf, -⟩ := hzero ha
    exact hvf
  · rw [hshift ha rfl, getLsbD_toNat]

/-- Settles O45: row by row, three for each of ADD, SUB and RSUB and one for each shift. -/
theorem flagRegisterAsOperand : Obligations.FlagRegisterAsOperand := by
  rintro s q a _ _ rfl rfl hq
  refine ⟨?_, ?_, ?_, ?_, ?_, ?_, ?_, ?_, ?_, exec_shr_vf a s, exec_shl_vf a s⟩
  · exact ⟨_, exec_add Reg.vf q s, State.reg_setReg_same _ _ _⟩
  · exact ⟨_, exec_add q Reg.vf s, State.reg_setReg_same _ _ _, by rw [reg_vf_add hq, flagWord_carryOut]⟩
  · exact ⟨_, exec_add Reg.vf Reg.vf s, State.reg_setReg_same _ _ _⟩
  · exact ⟨_, exec_sub Reg.vf q s, reg_subtractInto_vf_minuend hq s⟩
  · exact ⟨_, exec_sub q Reg.vf s, reg_subtractInto_vf_subtrahend hq s, reg_vf_subtractInto hq s⟩
  · exact ⟨_, exec_sub Reg.vf Reg.vf s, reg_subtractInto_vf_both s⟩
  · exact ⟨_, exec_rsub Reg.vf q s, reg_subtractInto_vf_subtrahend hq s, reg_vf_subtractInto hq s⟩
  · exact ⟨_, exec_rsub q Reg.vf s, reg_subtractInto_vf_minuend hq s⟩
  · exact ⟨_, exec_rsub Reg.vf Reg.vf s, reg_subtractInto_vf_both s⟩

end Sys2Proof.Machine

/-! SUPPORT. The index pointer and the register blocks of SPILL and LOADB (spec/43_index_memory.md R170 to R174). -/

namespace Sys2Proof.Machine

/-! ### SETI and ADDI (R170, R171) -/

/-- What SETI and ADDI have in common: `I` is written, the pc advances, and nothing else moves. -/
theorem complete_setIndex (s : State) (n : Nat) :
    ∃ t, complete (s.setIndex n) = .next t ∧ t.index = n ∧ t.pc = s.pc + 2 ∧ RegsKept s t [] ∧
      t.stack = s.stack ∧ t.engine = s.engine ∧ MemKept s t ∧ OutsideKept s t :=
  ⟨_, complete_eq _, rfl, rfl, fun _ _ => rfl, rfl, rfl, fun _ => rfl, rfl, rfl, rfl⟩

/-- Settles O47: both write `I`, one the constant and the other the sum. -/
theorem indexIsSetAndAddedExactly : Obligations.IndexIsSetAndAddedExactly :=
  fun s x nnn => ⟨complete_setIndex s nnn.toNat, complete_setIndex s (s.index + (s.reg x).toNat)⟩

/-! ### The range test of a block (R172, R173, R202) -/

theorem exec_spill_of_gt {x : Reg} {s : State} (h : 4096 < s.index + blockBytes x) :
    exec (.spill x) s = .fault (.addressFault s.index (blockBytes x)) := by
  obtain ⟨hle, -⟩ | ⟨-, hx⟩ := execSpill_cases x s
  · omega
  · exact hx

theorem exec_loadb_of_le {x : Reg} {s : State} (h : s.index + blockBytes x ≤ 4096) :
    exec (.loadb x) s = .next (loadRegs s (blockCount x)).advance := by
  obtain ⟨-, hx⟩ | ⟨hgt, -⟩ := execLoadb_cases x s
  · exact hx
  · omega

theorem exec_loadb_of_gt {x : Reg} {s : State} (h : 4096 < s.index + blockBytes x) :
    exec (.loadb x) s = .fault (.addressFault s.index (blockBytes x)) := by
  obtain ⟨hle, -⟩ | ⟨-, hx⟩ := execLoadb_cases x s
  · omega
  · exact hx

/-! ### The slots of a block (R172, R173) -/

/-- The registers of the block `x[0] .. x[X]` are those up to `X`. -/
theorem toNat_lt_blockCount_iff (r x : Reg) : r.toNat < blockCount x ↔ r ≤ x :=
  Nat.lt_succ_iff

/-- The slot of a register of the block lies inside the block's bytes. -/
theorem slot_lt_blockBytes {r x : Reg} (hr : r ≤ x) {j : Nat} (hj : j < 8) : 8 * r.toNat + j < blockBytes x := by
  have hlt := (toNat_lt_blockCount_iff r x).2 hr
  unfold blockBytes
  omega

/-- Byte `j` of the slot of `x[r]` after the block is stored, as a byte of the value (R52, R172). -/
theorem read_storeRegs_slot {s : State} {x r : Reg} (hm : s.mem.wf = true) (hle : s.index + blockBytes x ≤ 4096)
    (hr : r ≤ x) {j : Nat} (hj : j < 8) :
    (storeRegs s (blockCount x)).read (s.index + 8 * r.toNat + j) = byteOf (s.reg r).toNat (7 - j) := by
  have hread := read_storeRegs_inside (blockCount x) hm hle ((toNat_lt_blockCount_iff r x).2 hr) hj
  rwa [BitVec.ofNat_toNat, BitVec.setWidth_eq] at hread

/-- The frame of a completed SPILL beside memory: the pc advances and nothing else moves. -/
theorem setMem_advance_frame (s : State) (m : Memory) :
    (s.setMem m).advance.pc = s.pc + 2 ∧ RegsKept s (s.setMem m).advance [] ∧ ControlKept s (s.setMem m).advance ∧
      OutsideKept s (s.setMem m).advance :=
  ⟨rfl, fun _ _ => rfl, ⟨rfl, rfl, rfl⟩, rfl, rfl, rfl⟩

theorem reg_loadRegs_of_le (s : State) {x r : Reg} (hr : r ≤ x) :
    (loadRegs s (blockCount x)).reg r = BitVec.ofNat 64 (s.mem.readBE (s.index + 8 * r.toNat) 8) := by
  rw [reg_loadRegs s _ (blockCount_le x), if_pos ((toNat_lt_blockCount_iff r x).2 hr)]

theorem reg_loadRegs_of_gt (s : State) {x r : Reg} (hr : x < r) : (loadRegs s (blockCount x)).reg r = s.reg r := by
  have hnot : ¬ r.toNat < blockCount x := fun h => BitVec.not_le.2 hr ((toNat_lt_blockCount_iff r x).1 h)
  rw [reg_loadRegs s _ (blockCount_le x), if_neg hnot]

/-- The frame of a completed LOADB beside the registers: the pc advances and nothing else moves. -/
theorem loadRegs_advance_frame (s : State) (n : Nat) :
    (loadRegs s n).advance.pc = s.pc + 2 ∧ ControlKept s (loadRegs s n).advance ∧
      MemKept s (loadRegs s n).advance ∧ OutsideKept s (loadRegs s n).advance := by
  simp [ControlKept, MemKept, OutsideKept, loadRegs_frame]

/-- A register loaded from memory has memory's bytes, most significant first (R52, R173). -/
theorem extract_readBE (m : Memory) (a : Nat) {j : Nat} (hj : j < 8) :
    (BitVec.ofNat 64 (m.readBE a 8)).extractLsb' (8 * (7 - j)) 8 = m.read (a + j) := by
  have hlt : m.readBE a 8 < 2 ^ 64 := (Memory.readBE_lt m a 8).trans_eq (by norm_num)
  have hval : (BitVec.ofNat 64 (m.readBE a 8)).toNat = m.readBE a 8 := by
    rw [BitVec.toNat_ofNat, Nat.mod_eq_of_lt hlt]
  apply BitVec.eq_of_toNat_eq
  rw [← byteOf_eq_extract, hval, byteOf_toNat]
  exact Memory.readBE_byte m a 8 j hj

/-- Eight bytes that are those of a register value load as that value. -/
theorem ofNat_readBE_of_bytes {m : Memory} {a : Nat} {v : Word}
    (h : ∀ j, j < 8 → m.read (a + j) = byteOf v.toNat (7 - j)) : BitVec.ofNat 64 (m.readBE a 8) = v := by
  have hval : m.readBE a 8 = v.toNat := (Memory.readBE_of_bytes h).trans (Nat.mod_eq_of_lt v.isLt)
  rw [hval, BitVec.ofNat_toNat, BitVec.setWidth_eq]

/-! ### SPILL and LOADB (R172 to R174) -/

/-- Settles O48: the range test decides, and the store writes each slot and no byte outside the block. -/
theorem spillStoresTheBlock : Obligations.SpillStoresTheBlock := by
  refine fun s x => ⟨fun hle => ?_, exec_spill_of_gt⟩
  obtain ⟨hpc, hregs, hcontrol, houtside⟩ := setMem_advance_frame s (storeRegs s (blockCount x))
  refine ⟨_, exec_spill_of_le hle, hpc, hregs, hcontrol, houtside, fun a ha => ?_, fun hm r hr j hj => ?_⟩
  · rw [State.advance_mem, State.setMem_mem, read_storeRegs_outside s (blockCount x) ha]
  · rw [State.advance_mem, State.setMem_mem, read_storeRegs_slot hm hle hr hj, byteOf_eq_extract]

/-- Settles O49: the range test decides, and each register of the block is loaded from its slot. -/
theorem loadbLoadsTheBlock : Obligations.LoadbLoadsTheBlock := by
  refine fun s x => ⟨fun hle => ?_, exec_loadb_of_gt⟩
  obtain ⟨hpc, hcontrol, hmem, houtside⟩ := loadRegs_advance_frame s (blockCount x)
  refine ⟨_, exec_loadb_of_le hle, hpc, hcontrol, hmem, houtside, fun r hr => ?_, fun r hr j hj => ?_⟩
  · rw [State.advance_reg, reg_loadRegs_of_gt s hr]
  · rw [State.advance_reg, reg_loadRegs_of_le s hr, extract_readBE _ _ hj]

/-- Settles O51: each slot LOADB reads still holds the bytes of the register that SPILL stored there. -/
theorem spillThenLoadbRestores : Obligations.SpillThenLoadbRestores := by
  intro s t u x hm hspill hindex hblock
  obtain ⟨hle, rfl⟩ := exec_spill_next hspill
  obtain ⟨-, -, ⟨ht, -⟩, -⟩ := setMem_advance_frame s (storeRegs s (blockCount x))
  rw [ht] at hindex
  have hfit : u.index + blockBytes x ≤ 4096 := by rwa [hindex]
  obtain ⟨-, ⟨hv, -⟩, -⟩ := loadRegs_advance_frame u (blockCount x)
  refine ⟨_, exec_loadb_of_le hfit, fun r hr => ?_, ht, hv.trans hindex⟩
  rw [State.advance_reg, reg_loadRegs_of_le u hr, hindex]
  refine ofNat_readBE_of_bytes fun j hj => ?_
  have hslot := slot_lt_blockBytes hr hj
  rw [hblock _ (by omega) (by omega), State.advance_mem, State.setMem_mem, read_storeRegs_slot hm hle hr hj]

end Sys2Proof.Machine

/-! SUPPORT. The console instructions (spec/44_console_io.md R185 to R195): what the output instructions hand over, what an
input string is worth, and what the input instructions do with it. -/

namespace Sys2Proof.Machine

/-! ### Characters and digits (R194) -/

theorem charValue_of_decimal {c : Char} (h : 48 ≤ c.toNat ∧ c.toNat ≤ 57) : charValue c = some (c.toNat - 48) := by
  rw [charValue, if_pos h]

/-- The letters count 10 to 15, so a character that counts less is a decimal digit. -/
theorem decimal_of_charValue {c : Char} {d : Nat} (h : charValue c = some d) (hd : d < 10) :
    48 ≤ c.toNat ∧ c.toNat ≤ 57 := by
  unfold charValue at h
  split at h
  · assumption
  · split at h
    · cases h
      omega
    · split at h
      · cases h
        omega
      · cases h

theorem digitValue_of_lt {b : Base} {c : Char} {d : Nat} (h : charValue c = some d) (hd : d < b.radix) :
    digitValue b c = some d := by
  simp [digitValue, h, hd]

theorem digitValue_of_ge {b : Base} {c : Char} {d : Nat} (h : charValue c = some d) (hd : b.radix ≤ d) :
    digitValue b c = none := by
  simp [digitValue, h, hd]

/-! ### Parsing (R194) -/

/-- Reading digits that are all valid is the left fold of their values. -/
theorem digitsValue_of_digits {b : Base} {l : Line} (h : ∀ c ∈ l, ∃ d, charValue c = some d ∧ d < b.radix) (acc : Nat) :
    digitsValue b acc l = some (l.foldl (fun acc c => acc * b.radix + (charValue c).getD 0) acc) := by
  induction l generalizing acc with
  | nil => rfl
  | cons c cs ih =>
    obtain ⟨⟨d, hd, hlt⟩, hcs⟩ := List.forall_mem_cons.1 h
    simp [digitsValue, digitValue_of_lt hd hlt, hd, ih hcs]

/-- Reading fails at the first character that is no digit of the base. -/
theorem digitsValue_eq_none {b : Base} {l : Line} {c : Char} (hc : c ∈ l) (hv : digitValue b c = none) (acc : Nat) :
    digitsValue b acc l = none := by
  induction l generalizing acc with
  | nil => cases hc
  | cons a cs ih =>
    unfold digitsValue
    cases ha : digitValue b a with
    | none => rfl
    | some d =>
      have hne : c ≠ a := fun e => by simp [← e, hv] at ha
      exact ih (List.mem_of_ne_of_mem hne hc) _

theorem parseNumeral_of_isNumeral {b : Base} {l : Line} (h : IsNumeral b l) :
    parseNumeral b l = some (numeralValue b l) := by
  obtain ⟨hne, hdigits⟩ := h
  simp [parseNumeral, hne, digitsValue_of_digits hdigits, numeralValue]

theorem parseNumeral_of_foreignDigit {b : Base} {l : Line} {c : Char} (hc : c ∈ l) (hdec : 48 ≤ c.toNat ∧ c.toNat ≤ 57)
    (hforeign : b.radix ≤ c.toNat - 48) : parseNumeral b l = none := by
  have hne : l ≠ [] := List.ne_nil_of_mem hc
  have hread : digitsValue b 0 l = none :=
    digitsValue_eq_none hc (digitValue_of_ge (charValue_of_decimal hdec) hforeign) 0
  have hany : hasForeignDigit b l = true := List.any_eq_true.2 ⟨c, hc, by simp [hdec, hforeign]⟩
  simp [parseNumeral, hne, hread, hany]

theorem inputValue_of_isNumeral {b : Base} {l : Line} (h : IsNumeral b l) :
    inputValue b l = if numeralValue b l < 2 ^ 64 then some (BitVec.ofNat 64 (numeralValue b l)) else none := by
  simp [inputValue, parseNumeral_of_isNumeral h]

/-- Settles O57: a numeral is read to its value, and a register holds the value when it is below `2^64`. -/
theorem plainNumeralsParse : Obligations.PlainNumeralsParse := by
  intro b l h
  refine ⟨parseNumeral_of_isNumeral h, fun hlt => ?_, fun hge => ?_⟩
  · exact ⟨_, by rw [inputValue_of_isNumeral h, if_pos hlt], by rw [BitVec.toNat_ofNat, Nat.mod_eq_of_lt hlt]⟩
  · rw [inputValue_of_isNumeral h, if_neg hge.not_gt]

/-- Settles O58: reading stops at the foreign digit, and the test for one keeps the string from being open. -/
theorem foreignDigitFails : Obligations.ForeignDigitFails := by
  rintro b l ⟨c, hc, hlow, hhigh, hforeign⟩
  simp [inputValue, parseNumeral_of_foreignDigit hc ⟨hlow, hhigh⟩ hforeign]

/-! ### Numerals handed to the console (R193) -/

/-- A numeral in any spelling denotes the value: blanks, the marker, the digits, blanks. -/
theorem spell_denotes (f : Spelling) (b : Base) (v : Word) : Denotes b (spell f b v) v.toNat := by
  obtain ⟨hnumeral, hvalue⟩ := spelledDigits_spec f b v
  refine ⟨List.replicate f.before ' ', marker f b, spelledDigits f b v, List.replicate f.after ' ', rfl, ?_, ?_,
    hnumeral, hvalue⟩
  · rw [List.replicate_append_replicate]
    exact fun _ => List.eq_of_mem_replicate
  · unfold marker
    cases f.marked <;> cases f.markerUpper <;> simp

/-- The spelling of base 10: no marker, no padding, digits as they are. -/
def plainSpelling : Spelling :=
  { before := 0, marked := false, markerUpper := false, zeros := 0, upper := false, after := 0 }

theorem spelledDigits_plain (b : Base) (v : Word) : spelledDigits plainSpelling b v = plainNumeral b v := rfl

theorem plainNumeral_spec (b : Base) (v : Word) :
    IsNumeral b (plainNumeral b v) ∧ numeralValue b (plainNumeral b v) = v.toNat :=
  spelledDigits_plain b v ▸ spelledDigits_spec plainSpelling b v

/-- The first digit of the shortest numeral of a positive number is not `0`. -/
theorem shortestNumeral_head (b : Base) (fuel : Nat) {v : Nat} (hpos : 0 < v) (hv : v < b.radix ^ fuel) :
    ∃ c, (shortestNumeral b.radix fuel v).head? = some c ∧ c ≠ '0' := by
  have hr := Base.radix_le b
  induction fuel generalizing v with
  | zero =>
    rw [pow_zero] at hv
    omega
  | succ f ih =>
    unfold shortestNumeral
    by_cases h : v < b.radix
    · rw [if_pos h]
      refine ⟨digitChar v, rfl, fun e => ?_⟩
      have hzero : some v = some 0 := by rw [← charValue_digitChar v (by omega), e]; rfl
      cases hzero
      omega
    · have hquot : 0 < v / b.radix := Nat.div_pos (by omega) (by omega)
      obtain ⟨c, hhead, hc⟩ := ih hquot (Nat.div_lt_of_lt_mul (by rwa [pow_succ, Nat.mul_comm] at hv))
      exact ⟨c, by rw [if_neg h, List.head?_append, hhead]; rfl, hc⟩

/-- The plain numeral has a leading zero only as `0` itself. -/
theorem plainNumeral_of_head_zero {b : Base} {v : Word} (h : (plainNumeral b v).head? = some '0') :
    plainNumeral b v = ['0'] := by
  have hr := Base.radix_le b
  rcases Nat.eq_zero_or_pos v.toNat with hv | hv
  · rw [plainNumeral, hv, shortestNumeral, if_pos (by omega)]
    rfl
  · obtain ⟨c, hhead, hc⟩ :=
      shortestNumeral_head b 64 hv (v.isLt.trans_le (Nat.pow_le_pow_left hr.1 64))
    exact absurd (Option.some.inj (hhead.symm.trans h)) hc

/-- Output and input agree in every base: the value fits a register, since it came from one. -/
theorem inputValue_plainNumeral (b : Base) (v : Word) : inputValue b (plainNumeral b v) = some v := by
  obtain ⟨hnumeral, hvalue⟩ := plainNumeral_spec b v
  rw [inputValue_of_isNumeral hnumeral, hvalue, if_pos v.isLt, BitVec.ofNat_toNat, BitVec.setWidth_eq]

/-- Settles O59: in base 10 the numeral handed over is the plain one. -/
theorem decimalOutputReadsBack : Obligations.DecimalOutputReadsBack :=
  inputValue_plainNumeral .dec

/-! ### The output instructions (R185 to R188) -/

/-- What the four output instructions have in common: one string handed over, the pc advances, nothing else moves. -/
theorem display_outputFrame (b : Base) (x : Reg) (s : State) :
    ∃ t, display b x s = .next t ∧ OutputFrame s t (formatNumeral b (s.reg x)) :=
  ⟨_, display_eq b x s, fun _ _ => rfl, ⟨rfl, rfl, rfl⟩, fun _ => rfl, rfl, rfl, rfl, rfl⟩

/-- An output whose numeral is in some spelling hands over a string that denotes the register's value. -/
theorem display_denotes {b : Base} {x : Reg} {s : State} {f : Spelling}
    (h : formatNumeral b (s.reg x) = spell f b (s.reg x)) :
    ∃ t, display b x s = .next t ∧ OutputFrame s t (formatNumeral b (s.reg x)) ∧
      Denotes b (formatNumeral b (s.reg x)) (s.reg x).toNat := by
  obtain ⟨t, hx, hframe⟩ := display_outputFrame b x s
  exact ⟨t, hx, hframe, h ▸ spell_denotes f b (s.reg x)⟩

/-- Settles O53: bases 16, 2 and 8 hand over the numeral in the build's spelling, whatever that is. -/
theorem outputHandsOverTheNumeral : Obligations.OutputHandsOverTheNumeral :=
  fun _ _ => ⟨display_denotes rfl, display_denotes rfl, display_denotes rfl⟩

/-- Settles O54: base 10 hands over the plain numeral, whose digits are decimal and whose first is `0` only for zero. -/
theorem outdPrintsTheShortestDecimal : Obligations.OutdPrintsTheShortestDecimal := by
  intro s x
  obtain ⟨t, hx, hframe⟩ := display_outputFrame .dec x s
  obtain ⟨⟨hne, hdigits⟩, hvalue⟩ := plainNumeral_spec .dec (s.reg x)
  refine ⟨t, plainNumeral .dec (s.reg x), hx, hframe, hvalue, hne, fun c hc => ?_, plainNumeral_of_head_zero⟩
  obtain ⟨d, hd, hlt⟩ := hdigits c hc
  exact decimal_of_charValue hd hlt

/-! ### The input instructions (R189 to R192, R195) -/

theorem input_of_nil {s : State} (h : s.consoleIn = []) (b : Base) (x : Reg) : input b x s = .next s := by
  simp [input, h, waitForInput]

/-- The frame of a completed input: the string taken, then the register written. -/
theorem takeLine_setReg_inputFrame {s : State} {l : Line} {rest : List Line} (h : s.consoleIn = l :: rest) (b : Base)
    (x : Reg) (v : Word) : InputFrame b x s ((s.takeLine b x).setReg x v).advance l rest := by
  rw [State.takeLine_cons s b x l rest h]
  refine ⟨fun r hr => ?_, ⟨rfl, rfl, rfl⟩, fun _ => rfl, rfl, rfl, rfl, rfl⟩
  rw [State.advance_reg, State.reg_setReg_other _ v (List.ne_of_not_mem_cons hr)]
  rfl

/-- What the four input instructions do with a string: store its value or fail on it. -/
theorem input_of_cons {s : State} {l : Line} {rest : List Line} (h : s.consoleIn = l :: rest) (b : Base) (x : Reg) :
    (∀ v, inputValue b l = some v → ∃ t, input b x s = .next t ∧ t.reg x = v ∧ InputFrame b x s t l rest) ∧
      (inputValue b l = none → input b x s = .fault (.inputParseFailure b l)) := by
  constructor
  · intro v hv
    exact ⟨((s.takeLine b x).setReg x v).advance, by simp [input, h, hv], State.reg_setReg_same _ x v,
      takeLine_setReg_inputFrame h b x v⟩
  · intro hv
    simp [input, h, hv]

/-- Taking a string is outside the architectural state. -/
theorem takeLine_sameArchitecture (s : State) (b : Base) (r : Reg) : SameArchitecture s (s.takeLine b r) :=
  ⟨s.takeLine_x b r, s.takeLine_pc b r, s.takeLine_index b r, s.takeLine_stack b r, s.takeLine_engine b r,
    s.takeLine_mem b r⟩

/-- Settles O55: the four instructions are one operation in four bases, and a failed one leaves the string taken. -/
theorem inputStoresTheParsedValue : Obligations.InputStoresTheParsedValue := by
  intro s x l rest h
  refine ⟨input_of_cons h .hex x, input_of_cons h .dec x, input_of_cons h .bin x, input_of_cons h .oct x, fun b => ?_⟩
  have htail : s.consoleIn.tail = rest := by rw [h, List.tail_cons]
  exact ⟨takeLine_sameArchitecture s b _, (s.takeLine_consoleIn b _).trans htail⟩

/-- A run call that reaches an input instruction without an answer is blocked there (R239). -/
theorem runFor_blocked {s : State} (hf : s.fetches) (hnil : s.consoleIn = []) {i : Instr}
    (hd : decode s.word = .instr i) (hi : readsConsole i = true) (n : Nat) : runFor (n + 1) s = (.blocked, s) := by
  have hw : s.waiting = true := by rw [waiting_eq hf hd, hi, hnil]; rfl
  obtain ⟨hrun, -⟩ := hf
  exact runFor_succ_of_waiting hrun hw n

/-- Settles O56: each of the four waits by itself, and so does the run call that reaches it. -/
theorem inputWaitsForAnAnswer : Obligations.InputWaitsForAnAnswer := by
  intro s x h
  refine ⟨input_of_nil h .hex x, input_of_nil h .dec x, input_of_nil h .bin x, input_of_nil h .oct x, fun hf hd => ?_⟩
  rcases hd with hd | hd | hd | hd
  all_goals exact runFor_blocked hf h hd rfl

end Sys2Proof.Machine

/-! SUPPORT. Exceptions (spec/60_exceptions.md R200 to R218): which fault a cycle raises, the state the host finds after
it, the retry, and the one result of an unbounded run. -/

namespace Sys2Proof.Machine

/-! ### The fault of one instruction (R200, R202, R203, R205) -/

theorem faultOf_execRet (s : State) : faultOf (exec .ret s) = expectedFault .ret s := by
  cases hs : s.stack with
  | nil => simp [exec_ret_of_nil hs, faultOf, expectedFault, hs]
  | cons top rest => simp [exec_ret_of_cons hs, faultOf, expectedFault, hs]

theorem faultOf_execSpill (x : Reg) (s : State) : faultOf (exec (.spill x) s) = expectedFault (.spill x) s := by
  by_cases h : 4096 < s.index + blockBytes x
  · exact (congrArg faultOf (exec_spill_of_gt h)).trans (if_pos h).symm
  · exact (congrArg faultOf (exec_spill_of_le (Nat.le_of_not_lt h))).trans (if_neg h).symm

theorem faultOf_execLoadb (x : Reg) (s : State) : faultOf (exec (.loadb x) s) = expectedFault (.loadb x) s := by
  by_cases h : 4096 < s.index + blockBytes x
  · exact (congrArg faultOf (exec_loadb_of_gt h)).trans (if_pos h).symm
  · exact (congrArg faultOf (exec_loadb_of_le (Nat.le_of_not_lt h))).trans (if_neg h).symm

theorem faultOf_input (b : Base) (x : Reg) (s : State) : faultOf (input b x s) = inputFault b s := by
  obtain ⟨hc, h⟩ | ⟨l, rest, v, hc, hv, h⟩ | ⟨l, rest, hc, hv, h⟩ := input_cases b x s
  · simp [h, faultOf, inputFault, hc]
  · simp [h, faultOf, inputFault, hc, hv]
  · simp [h, faultOf, inputFault, hc, hv]

/-- RET, the block instructions and the input instructions have each their one fault, the others have none. -/
theorem faultOf_exec (i : Instr) (s : State) : faultOf (exec i s) = expectedFault i s := by
  cases i with
  | ret => exact faultOf_execRet s
  | spill x => exact faultOf_execSpill x s
  | loadb x => exact faultOf_execLoadb x s
  | inx | ind | inb | ino => exact faultOf_input _ _ s
  | _ => rfl

theorem expectedFault_of_exec {i : Instr} {s : State} {f : Fault} (h : exec i s = .fault f) :
    expectedFault i s = some f := by
  rw [← faultOf_exec, h]
  rfl

/-! ### The fault of one cycle (R200, R201, R209) -/

theorem step_of_pc_gt {s : State} (hrun : s.engine = .running) (hpc : 4094 < s.pc) :
    step s = .fault (.fetchFault s.pc) := by
  unfold step
  rw [hrun, fetchBytes_of_gt hpc]
  rfl

/-- A rejected cycle has no bytes to fetch, or its decoded instruction faults. -/
theorem step_fault_cases {s : State} {f : Fault} (h : step s = .fault f) :
    f = .fetchFault s.pc ∨ ∃ i, s.fetches ∧ decode s.word = .instr i ∧ exec i s = .fault f := by
  obtain ⟨-, hx⟩ | ⟨-, -, hx⟩ | ⟨i, hrun, hpc, hd, hx⟩ | ⟨-, -, -, hx⟩ := step_cases s
  · cases hx.symm.trans h
  · exact .inl (Host.Outcome.fault.inj (h.symm.trans hx))
  · exact .inr ⟨i, ⟨hrun, hpc⟩, hd, hx.symm.trans h⟩
  · cases hx.symm.trans h

/-- Settles O24: an instruction faults as tabled, a step as its fetch or its instruction does, CALL on a full stack. -/
theorem faultsAreTheTabledOnes : Obligations.FaultsAreTheTabledOnes := by
  refine ⟨faultOf_exec, fun s => ?_, fun cap nnn s => ?_, fun _ _ => ⟨rfl, rfl, rfl, rfl⟩, fun _ _ => rfl⟩
  · obtain ⟨he, hx⟩ | ⟨he, hpc, hx⟩ | ⟨i, he, hpc, hd, hx⟩ | ⟨he, hpc, hd, hx⟩ := step_cases s
    · simp [hx, he, faultOf]
    · simp [hx, he, hpc, faultOf]
    · simp [hx, he, Nat.not_lt.2 hpc, hd, faultOf_exec]
    · simp [hx, he, Nat.not_lt.2 hpc, hd, faultOf]
  · obtain ⟨hfull, hx⟩ | ⟨hroom, hx⟩ := callWith_cases cap nnn s
    · rw [hx, if_pos hfull]
      rfl
    · rw [hx, if_neg hroom]
      rfl

/-! ### The state the host finds after a fault (R105, R206) -/

theorem afterFault_sameArchitecture (s : State) (f : Fault) : SameArchitecture s (s.afterFault f) := by
  obtain h | ⟨b, r, h⟩ := afterFault_cases s f
  · rw [h]
    exact ⟨rfl, rfl, rfl, rfl, rfl, rfl⟩
  · rw [h]
    exact takeLine_sameArchitecture s b r

theorem writtenLines_afterFault (s : State) (f : Fault) :
    writtenLines (s.afterFault f).transcript = writtenLines s.transcript := by
  obtain h | ⟨b, r, h⟩ := afterFault_cases s f
  · rw [h]
  · rw [h, writtenLines_takeLine]

theorem afterFault_eq_self {f : Fault} (hf : ∀ b l, f ≠ .inputParseFailure b l) (s : State) : s.afterFault f = s := by
  cases f with
  | inputParseFailure b l => exact absurd rfl (hf b l)
  | _ => rfl

/-- A cycle that waits for its input is not rejected (R239). -/
theorem step_of_waiting {s : State} (h : s.waiting = true) : step s = .next s := by
  unfold State.waiting at h
  split at h
  case h_5 => cases h
  all_goals
    next hrun hnil hd => exact (step_of_decodeBytes hrun hd).trans (input_of_nil hnil _ _)

theorem waiting_of_step_fault {s : State} {f : Fault} (h : step s = .fault f) : s.waiting = false := by
  cases hw : s.waiting with
  | false => rfl
  | true => cases (step_of_waiting hw).symm.trans h

/-- Settles O9: the invariant speaks of memory and the call stack, which a fault keeps. -/
theorem faultKeepsTheInvariant : Obligations.FaultKeepsTheInvariant := by
  intro s f hs _
  obtain ⟨-, -, -, hstack, -, hmem⟩ := afterFault_sameArchitecture s f
  exact hs.of_eq hmem hstack

/-- Settles O25: a fault can only have taken an input string, and the run call ends with it. -/
theorem faultLeavesNoTrace : Obligations.FaultLeavesNoTrace := fun s f h =>
  ⟨afterFault_sameArchitecture s f, (afterFault_engine s f).trans (running_of_step_fault h),
    writtenLines_afterFault s f, runFor_succ_of_fault (waiting_of_step_fault h) h⟩

/-- Settles O20: no two bytes are there to decode, and that fault ends the run call. -/
theorem fetchPastTheEndFaults : Obligations.FetchPastTheEndFaults := by
  intro s hrun hpc
  have hx := step_of_pc_gt hrun hpc
  exact ⟨hx, rfl, runFor_succ_of_fault (waiting_of_step_fault hx) hx⟩

/-- Settles O50: the one range test refuses the block for both instructions. -/
theorem blockPastTheEndFaults : Obligations.BlockPastTheEndFaults :=
  fun _ _ h => ⟨exec_spill_of_gt h, exec_loadb_of_gt h, rfl⟩

/-! ### The failed input and its retry (R189 to R192, R205, R208) -/

/-- The input instruction of a base. -/
def inputInstr (b : Base) (x : Reg) : Instr :=
  match b with
  | .hex => .inx x
  | .dec => .ind x
  | .bin => .inb x
  | .oct => .ino x

theorem exec_inputInstr (b : Base) (x : Reg) (s : State) : exec (inputInstr b x) s = input b x s := by
  cases b <;> rfl

theorem fieldX_encode_inputInstr (b : Base) (x : Reg) : fieldX (encode (inputInstr b x)) = x := by
  cases b <;> exact fieldX_packK _ x _

theorem fieldX_of_decode_inputInstr {w : Code} {b : Base} {x : Reg} (h : decode w = .instr (inputInstr b x)) :
    fieldX w = x := by
  rw [← encode_of_decode h, fieldX_encode_inputInstr]

theorem inputFault_eq_some {b : Base} {s : State} {f : Fault} (h : inputFault b s = some f) :
    ∃ l rest, s.consoleIn = l :: rest ∧ f = .inputParseFailure b l := by
  unfold inputFault at h
  cases hc : s.consoleIn with
  | nil => simp [hc] at h
  | cons l rest =>
    obtain ⟨-, rfl⟩ : inputValue b l = none ∧ Fault.inputParseFailure b l = f := by simpa [hc] using h
    exact ⟨l, rest, rfl, rfl⟩

/-- Only the input instruction of base `b` fails in that base, and it has read the string it reports. -/
theorem exec_inputParseFailure {i : Instr} {s : State} {b : Base} {l : Line}
    (h : exec i s = .fault (.inputParseFailure b l)) :
    ∃ x rest, i = inputInstr b x ∧ s.consoleIn = l :: rest := by
  have hf := expectedFault_of_exec h
  cases i with
  | inx x | ind x | inb x | ino x =>
    obtain ⟨_, rest, hc, he⟩ := inputFault_eq_some hf
    cases he
    exact ⟨x, rest, rfl, hc⟩
  | ret | spill | loadb => simp [expectedFault] at hf
  | _ => cases hf

/-- The prompt of a failed input names the X field of the word that was fetched. -/
theorem afterFault_inputParseFailure (s : State) (b : Base) (l : Line) :
    s.afterFault (.inputParseFailure b l) = s.takeLine b (fieldX s.word) := by
  have hw : BitVec.ofNat 16 (s.mem.readBE s.pc 2) = s.word := by
    rw [Memory.readBE_two, ← word_toNat, BitVec.ofNat_toNat, BitVec.setWidth_eq]
  rw [State.afterFault, hw]

theorem takeLine_fetches {s : State} (h : s.fetches) (b : Base) (r : Reg) : (s.takeLine b r).fetches := by
  rwa [State.fetches, State.takeLine_engine, State.takeLine_pc]

theorem takeLine_word (s : State) (b : Base) (r : Reg) : (s.takeLine b r).word = s.word := by
  rw [State.word, State.takeLine_mem, State.takeLine_pc, State.word]

/-- Taking a string leaves the same input instruction to run next. -/
theorem step_takeLine {s : State} {b : Base} {x : Reg} (hf : s.fetches) (hd : decode s.word = .instr (inputInstr b x)) :
    step (s.takeLine b x) = input b x (s.takeLine b x) := by
  have hd' : decode (s.takeLine b x).word = .instr (inputInstr b x) := by rw [takeLine_word, hd]
  rw [step_of_instr (takeLine_fetches hf b x) hd', exec_inputInstr]

/-- What a failed input leaves behind, and that its retry is the same instruction on the next string. -/
theorem step_inputParseFailure {s : State} {b : Base} {l : Line} (h : step s = .fault (.inputParseFailure b l)) :
    ∃ rest, s.consoleIn = l :: rest ∧ s.afterFault (.inputParseFailure b l) = s.takeLine b (fieldX s.word) ∧
      step (s.takeLine b (fieldX s.word)) = input b (fieldX s.word) (s.takeLine b (fieldX s.word)) := by
  obtain hfetch | ⟨i, hf, hd, hx⟩ := step_fault_cases h
  · cases hfetch
  · obtain ⟨x, rest, rfl, hc⟩ := exec_inputParseFailure hx
    refine ⟨rest, hc, afterFault_inputParseFailure s b l, ?_⟩
    rw [fieldX_of_decode_inputInstr hd]
    exact step_takeLine hf hd

/-- Settles O26: a fault that keeps the whole state recurs, and the retry of a failed input reads the next string. -/
theorem retryRecursUnlessInput : Obligations.RetryRecursUnlessInput := by
  intro s f h
  constructor
  · intro hf
    have hs := afterFault_eq_self hf s
    exact ⟨hs, hs.symm ▸ h⟩
  · rintro b l rfl
    obtain ⟨rest, hc, hafter, hretry⟩ := step_inputParseFailure h
    have hrest : (s.takeLine b (fieldX s.word)).consoleIn = rest := by rw [State.takeLine_consoleIn, hc, List.tail_cons]
    rw [hafter, hretry]
    refine ⟨rest, hc, hrest, ?_, ?_, ?_⟩
    · rw [State.takeLine_cons s b _ l rest hc]
    · rintro l' rest' rfl hv
      exact (input_of_cons hrest b _).2 hv
    · rintro l' rest' v rfl hv
      obtain ⟨t, hx, hreg, -, -, -, hpc, -⟩ := (input_of_cons hrest b (fieldX s.word)).1 v hv
      exact ⟨t, hx, hreg, hpc.trans (by rw [State.takeLine_pc])⟩

/-! ### The result of a run (R106, R218) -/

/-- A run that ended by itself ends the same way with any larger budget. -/
theorem runFor_of_le {n m : Nat} {s t : State} {st : RunStatus} (h : runFor n s = (st, t)) (hst : st ≠ .budgetExhausted)
    (hnm : n ≤ m) : runFor m s = (st, t) := by
  obtain ⟨k, rfl⟩ := Nat.exists_eq_add_of_le hnm
  exact (runSplitsIntoBatches n k s).2 st t h hst

/-- Settles O6: both runs end the same way with the larger of their two budgets. -/
theorem unboundedRunHasOneResult : Obligations.UnboundedRunHasOneResult := by
  rintro s st st' t t' ⟨n, h, hst, -⟩ ⟨m, h', hst', -⟩
  have hmax : (st, t) = (st', t') :=
    (runFor_of_le h hst (le_max_left n m)).symm.trans (runFor_of_le h' hst' (le_max_right n m))
  obtain ⟨rfl, rfl⟩ := Prod.mk.inj hmax
  exact ⟨rfl, rfl, hst⟩

end Sys2Proof.Machine

/-! SUPPORT. Reset and load (spec/70_reset_and_hazards.md R230 to R234): the state both resets leave, the image in memory,
and the run that finds nothing loaded. -/

namespace Sys2Proof.Machine

/-! ### The reset state (R230, R231) -/

/-- The model's own fields aside, the host's reset is the power-on reset. -/
theorem hostReset_sameArchitecture (s : State) : SameArchitecture State.reset s.hostReset :=
  ⟨rfl, rfl, rfl, rfl, rfl, rfl⟩

theorem hostReset_outsideKept (s : State) : OutsideKept s s.hostReset :=
  ⟨rfl, rfl, rfl⟩

@[simp] theorem State.hostReset_reg (s : State) (r : Reg) : s.hostReset.reg r = 0#64 :=
  State.reset_reg r

@[simp] theorem State.hostReset_mem (s : State) : s.hostReset.mem = [] := rfl

theorem read_hostReset (s : State) (a : Nat) : s.hostReset.mem.read a = 0#8 := by
  rw [State.hostReset_mem, Memory.read_nil]

theorem hostReset_fetches (s : State) : s.hostReset.fetches :=
  ⟨rfl, Nat.zero_le 4094⟩

theorem hostReset_word (s : State) : s.hostReset.word = 0x0000#16 := by
  rw [State.word, read_hostReset, read_hostReset]
  rfl

/-- Settles O1: every entry of R230's table is read off the reset state. -/
theorem resetZeroesTheMachine : Obligations.ResetZeroesTheMachine :=
  ⟨State.reset_reg, rfl, rfl, rfl, rfl, fun a _ => Memory.read_nil a⟩

/-- Settles O2: the host's reset starts from the reset state and takes over only the collaborators. -/
theorem hostResetRebuildsTheZeroState : Obligations.HostResetRebuildsTheZeroState :=
  fun s => ⟨hostReset_sameArchitecture s, hostReset_outsideKept s⟩

/-- Settles O7: the empty memory is canonical and the empty stack holds no address. -/
theorem resetMeetsTheInvariant : Obligations.ResetMeetsTheInvariant :=
  ⟨Memory.wf_nil, List.forall_mem_nil _⟩

/-! ### Loading an image (R232) -/

theorem load_of_le (s : State) {image : List Byte} (h : image.length ≤ 4096) :
    s.load image = some (s.setMem (s.mem.writeBytes 0 image)) :=
  if_pos h

theorem load_of_gt (s : State) {image : List Byte} (h : 4096 < image.length) : s.load image = none :=
  if_neg (Nat.not_le.2 h)

theorem setMem_frame (s : State) (m : Memory) :
    RegsKept s (s.setMem m) [] ∧ (s.setMem m).pc = s.pc ∧ ControlKept s (s.setMem m) ∧ OutsideKept s (s.setMem m) :=
  ⟨fun _ _ => rfl, rfl, ⟨rfl, rfl, rfl⟩, rfl, rfl, rfl⟩

/-- Settles O4: the image is written into the empty memory from address 0, in range exactly when `load` accepts it. -/
theorem loadPlacesTheImage : Obligations.LoadPlacesTheImage := by
  intro s image
  refine ⟨fun hfit => ?_, load_of_gt s.hostReset⟩
  have hwf : s.hostReset.mem.wf = true := Memory.wf_nil
  have hrange : 0 + image.length ≤ 4096 := by rwa [Nat.zero_add]
  refine ⟨_, load_of_le s.hostReset hfit, fun k hk => ?_, fun a ha _ => ?_, ?_, setMem_frame s.hostReset _⟩
  · simpa only [State.setMem_mem, Nat.zero_add] using Memory.read_writeBytes_inside hwf hrange hk
  · have hout : a < 0 ∨ 0 + image.length ≤ a := .inr (by rwa [Nat.zero_add])
    exact (Memory.read_writeBytes_outside s.hostReset.mem image hout).trans (read_hostReset s a)
  · exact Memory.wf_writeBytes image hwf hrange

/-! ### Running with nothing loaded (R103, R234) -/

/-- With the word 0x0000 at a fetchable `pc` the next cycle is HALT, and it does not wait. -/
theorem step_of_zeroWord {s : State} (hf : s.fetches) (hw : s.word = 0x0000#16) :
    step s = exec .halt s ∧ s.waiting = false := by
  have hd := (decode_eq_halt_iff s.word).2 hw
  exact ⟨step_of_instr hf hd, waiting_eq hf hd⟩

/-- An unbounded run whose first cycle leaves the engine Halted returns Halted with the state of that cycle. -/
theorem runsTo_of_step_halted {s t : State} (hrun : s.engine = .running) (hw : s.waiting = false)
    (hx : step s = .next t) (ht : t.engine = .halted) : RunsTo s .halted t :=
  ⟨1, (runFor_succ_of_next hrun hw hx 0).trans (runFor_halted ht 0), nofun, nofun⟩

/-- Settles O3: the zero word at 0 is HALT, and what HALT keeps still has its reset value. -/
theorem runWithoutImageHaltsAtTwo : Obligations.RunWithoutImageHaltsAtTwo := by
  intro s
  have hword := hostReset_word s
  obtain ⟨hstep, hwait⟩ := step_of_zeroWord (hostReset_fetches s) hword
  obtain ⟨t, hx, hengine, hpc, hregs, hindex, hstack, hmem, houtside, -⟩ := haltStopsTheEngine s.hostReset
  have hnext : step s.hostReset = .next t := hstep.trans hx
  refine ⟨hword, t, hnext, runsTo_of_step_halted rfl hwait hnext hengine, hengine, hpc, fun r => ?_, hindex, hstack,
    fun a _ => (hmem a).trans (read_hostReset s a), houtside⟩
  rw [hregs r List.not_mem_nil, State.hostReset_reg]

end Sys2Proof.Machine
